-- ==== Sys2Proof/Word.lean ====
section
/-! DEFINITION. The word types of the dz4 CORE: what the spec treats as bits. Program counters, cell
indices and lengths are natural numbers (10_state.md R12, 20_memory.md R27, 00_scope.md R4). -/

namespace Sys2Proof

/-- A byte of the program space, 20_memory.md R26. -/
abbrev Byte := BitVec 8

/-- Four bits: the opcode field, 30_encoding.md R49. -/
abbrev Nibble := BitVec 4

/-- The 28-bit operand field `W[31:4]` (`imm28`, `addr28`), 30_encoding.md R46, R47. -/
abbrev Field := BitVec 28

/-- The accumulator and a data cell: `XLEN = 32` bits, unsigned, 10_state.md R11, R13
(DESIGN CHOICE, the spec's decision D3; log entry 2). -/
abbrev Word := BitVec 32

end Sys2Proof
end

