-- ==== Sys2Proof/Syntax.lean ====
section
/-! DEFINITION. The instruction set: one constructor per row of spec/opcode_table.json. The bits the
decoder ignores (30_encoding.md R53) are not part of an instruction (93_implementation_defined.md U7;
log entry 14). -/

namespace Sys2Proof

/-- The four operations the opcode nibble selects, 30_encoding.md R49. -/
inductive Opcode
  | loadConst
  | loadMem
  | storeMem
  | shr
  deriving DecidableEq, Repr

/-- A decoded instruction. The accumulator is implicit in all four, 10_state.md R14. -/
inductive Instr
  /-- LOAD_CONST, format K: the 28-bit immediate, 30_encoding.md R46. -/
  | loadConst (imm : Field)
  /-- LOAD_MEM, format N: no operand, 30_encoding.md R48. -/
  | loadMem
  /-- STORE_MEM, format A: the address as decoded, 28 bits, 30_encoding.md R47. -/
  | storeMem (addr : Field)
  /-- SHR, format A: the address of the shift amount, 28 bits, 30_encoding.md R47. -/
  | shr (addr : Field)
  deriving DecidableEq, Repr

end Sys2Proof
end

