-- ==== Sys2Proof/Decode.lean ====
section
/-! DEFINITION. The decoder, total on any bytes and rejecting by name, then the encoder, both from
30_encoding.md; and the opcode table's numbering of an instruction's bits. -/

namespace Sys2Proof

/-! ### Opcode nibble and width -/

/-- The low nibble of a byte, `b[3:0]`, 40_fetch_decode.md R63. -/
def lowNibble (b : Byte) : Nibble := b.extractLsb' 0 4

/-- The opcode map, 30_encoding.md R49. The other twelve nibbles are illegal, R52. -/
def Opcode.ofNibble (n : Nibble) : Option Opcode :=
  if n = 0xD#4 then some .loadConst
  else if n = 0x5#4 then some .loadMem
  else if n = 0xC#4 then some .storeMem
  else if n = 0x1#4 then some .shr
  else none

/-- The nibble of each operation, 30_encoding.md R49. -/
def Opcode.nibble : Opcode → Nibble
  | .loadConst => 0xD#4
  | .loadMem => 0x5#4
  | .storeMem => 0xC#4
  | .shr => 0x1#4

/-- The width in bytes, a function of the opcode alone, 30_encoding.md R45, 40_fetch_decode.md R64. -/
def Opcode.width : Opcode → Nat
  | .loadConst => 4
  | .loadMem => 1
  | .storeMem => 5
  | .shr => 5

def Instr.opcode : Instr → Opcode
  | .loadConst _ => .loadConst
  | .loadMem => .loadMem
  | .storeMem _ => .storeMem
  | .shr _ => .shr

/-- The width in bytes of an instruction, 40_fetch_decode.md R64. -/
def Instr.width (i : Instr) : Nat := i.opcode.width

/-! ### Operand window -/

/-- `le32`: the byte at the lowest offset is the least significant, 20_memory.md R28. -/
def le32 (b0 b1 b2 b3 : Byte) : BitVec 32 := b3 ++ b2 ++ b1 ++ b0

/-- `W >> 4 = W[31:4]`, 28 bits, no mask, 30_encoding.md R50, R51. -/
def operandField (w : BitVec 32) : Field := w.extractLsb' 4 28

/-! ### The decoder -/

/-- What the bytes from the program counter to the end of the stream hold. -/
inductive DecodeResult
  /-- A whole instruction. -/
  | instr (i : Instr)
  /-- An illegal nibble, 40_fetch_decode.md R65. -/
  | unknownOpcode (nibble : Nibble)
  /-- A legal nibble whose frame of `len` bytes runs past the stream, 40_fetch_decode.md R66. -/
  | truncated (len : Nat)
  /-- No byte at all: the frame boundary, 40_fetch_decode.md R62. -/
  | endOfStream
  deriving DecidableEq, Repr

/-- Format K: four bytes, every bit significant, 30_encoding.md R46. -/
def decodeFormatK (op : Opcode) (mk : Field → Instr) (b0 : Byte) : List Byte → DecodeResult
  | b1 :: b2 :: b3 :: _ => .instr (mk (operandField (le32 b0 b1 b2 b3)))
  | _ => .truncated op.width

/-- Format A: the fifth byte must exist and is not read, 30_encoding.md R47,
40_fetch_decode.md R66, R68. -/
def decodeFormatA (op : Opcode) (mk : Field → Instr) (b0 : Byte) : List Byte → DecodeResult
  | b1 :: b2 :: b3 :: _ :: _ => .instr (mk (operandField (le32 b0 b1 b2 b3)))
  | _ => .truncated op.width

/-- Decode the instruction at the head of the bytes that remain: nibble, frame check, operand, in
that order, 30_encoding.md section 6, 40_fetch_decode.md R61 to R68. -/
def decode : List Byte → DecodeResult
  | [] => .endOfStream
  | b0 :: rest =>
    match Opcode.ofNibble (lowNibble b0) with
    | none => .unknownOpcode (lowNibble b0)
    | some .loadConst => decodeFormatK .loadConst .loadConst b0 rest
    | some .loadMem => .instr .loadMem
    | some .storeMem => decodeFormatA .storeMem .storeMem b0 rest
    | some .shr => decodeFormatA .shr .shr b0 rest

/-! ### The encoder -/

/-- The four bytes of a window, lowest offset first, 20_memory.md R28. -/
def windowBytes (w : BitVec 32) : List Byte :=
  [w.extractLsb' 0 8, w.extractLsb' 8 8, w.extractLsb' 16 8, w.extractLsb' 24 8]

/-- The window `W` with `W[3:0]` the opcode and `W[31:4]` the operand, 30_encoding.md R46, R47. -/
def operandWindow (f : Field) (op : Opcode) : BitVec 32 := f ++ op.nibble

/-- The bytes of an instruction with every ignored bit zero, as in the canonical encodings
(30_encoding.md R46 to R48). An address of 4096 or more gives the non-canonical bytes that decode
to it (R53); the assembler's own arithmetic is in Machine/Assembler.lean. Log entry 14. -/
def encode : Instr → List Byte
  | .loadConst imm => windowBytes (operandWindow imm .loadConst)
  | .loadMem => [0x05#8]
  | .storeMem addr => windowBytes (operandWindow addr .storeMem) ++ [0x00#8]
  | .shr addr => windowBytes (operandWindow addr .shr) ++ [0x00#8]

/-! ### The opcode table's numbering -/

/-- The `n` low bytes of `w`, least significant first: byte 0 of the stream is bits 7:0. -/
def leBytes : Nat → Nat → List Byte
  | 0, _ => []
  | n + 1, w => BitVec.ofNat 8 w :: leBytes n (w / 256)

/-- The width of the longest instruction, 30_encoding.md R45. -/
def maxWidth : Nat := 5

/-- The bytes of an instruction given as `nbits` bits of `w` in the numbering of
spec/opcode_table.json, with zeros up to the longest instruction. -/
def tableBytes (nbits w : Nat) : List Byte := leBytes maxWidth (w % 2 ^ nbits)

/-- The instruction the decoder reads from a table word, if it reads one. -/
def decodeTableWord (nbits w : Nat) : Option Instr :=
  match decode (tableBytes nbits w) with
  | .instr i => some i
  | .unknownOpcode _ => none
  | .truncated _ => none
  | .endOfStream => none

end Sys2Proof
end

