-- ==== Sys2Proof/Config.lean ====
section
/-! DEFINITION. The parameters of the dz4 CORE, 00_scope.md R4. The spec leaves no value open, so
there is no free value here. `PROG` and `L` are parameters of a run: see Machine/State.lean. -/

namespace Sys2Proof.Config

/-- `MEM_CELLS`: the number of cells of the data memory, 10_state.md R13. -/
def memCells : Nat := 1024

/-- `ADDR_FIELD_BITS` as the assembler can fill it, 00_scope.md R4, 30_encoding.md R58. -/
def canonicalAddrBits : Nat := 12

/-- `ACC_RESET`, 10_state.md R11, R23. DESIGN CHOICE: the source gives no value and the spec's
decision D2 takes 0; unsafe; log entry 1. -/
def accReset : Word := 0#32

end Sys2Proof.Config
end

