-- ==== Sys2Proof/Machine/State.lean ====
section
/-! DEFINITION. The state of the dz4 CORE (10_state.md R10 to R24), the ways a step can stop, and the
state after reset. -/

namespace Sys2Proof.Machine

/-- The three causes a fault record names, 10_state.md R19, 60_exceptions.md R95. -/
inductive FaultCause
  /-- Cause 1: an illegal opcode nibble, 60_exceptions.md R96. -/
  | unknownOpcode
  /-- Cause 2: the frame runs past the stream, 60_exceptions.md R97. -/
  | truncatedInstruction
  /-- Cause 3: a cell index of 1024 or more, 60_exceptions.md R98. -/
  | boundsError
  deriving DecidableEq, Repr

/-- The cause numbers of 10_state.md R19 (DESIGN CHOICE, the spec's decision D6; log entry 5). -/
def FaultCause.number : FaultCause → Nat
  | .unknownOpcode => 1
  | .truncatedInstruction => 2
  | .boundsError => 3

/-- A fault record `(cause, offset, info)`, 10_state.md R19. -/
structure FaultRecord where
  cause : FaultCause
  /-- The program counter of the faulting step. -/
  offset : Nat
  /-- The offending nibble, the width needed, or the cell index out of range. -/
  info : Nat
  deriving DecidableEq, Repr

/-- The data memory as (cell index, word) pairs. The unit of addressing is the cell, which no
instruction can take apart (10_state.md R13, 20_memory.md R29), so an entry holds a whole cell.
Canonical form: `Memory.wf` in Machine/Ops.lean; log entry 12. -/
abbrev Memory := List (Nat × Word)

/-- What a cell that is not listed holds: 0, as every cell after reset, 10_state.md R23. -/
def Memory.unlisted : Word := 0#32

/-- The state of the machine, 10_state.md R10, with the run's program beside it. -/
structure State where
  /-- Byte offset in `prog` of the next instruction, a natural number, 10_state.md R12. -/
  pc : Nat
  /-- The accumulator, 10_state.md R11. -/
  acc : Word
  /-- The data memory, 10_state.md R13. -/
  mem : Memory
  /-- The fault record, `none` until a step faults, 10_state.md R19. -/
  fault : Option FaultRecord
  /-- `PROG`: no state in the spec's words but a parameter of the run that no step changes,
  10_state.md R16; `L` is its length, 00_scope.md R4. Log entry 9. -/
  prog : List Byte
  deriving DecidableEq, Repr

/-- Why there is no step. The faults of 60_exceptions.md are NOT here: raising one is a next state
(its record is written), and it is the step after that which does not exist, 40_fetch_decode.md R60.
Log entries 6, 10. -/
inductive Fault
  /-- Raised by `step` in a done state (`fault = none`, `pc = L`): the run has ended normally,
  40_fetch_decode.md R60, R62. Safe: the machine stays as it is until reset. -/
  | runDone
  /-- Raised by `step` in a faulted state: no further step is taken, 60_exceptions.md R105.
  Safe: the machine stays as it is until reset. -/
  | runFaulted (r : FaultRecord)
  /-- Raised by `step` with `fault = none` and `pc > L`, which no run reaches (10_state.md R24) and
  for which the spec gives no step. Safe; DESIGN CHOICE, log entry 11. -/
  | pcPastEnd
  deriving DecidableEq, Repr

/-- Why an instruction has no meaning here. -/
inductive Refusal
  /-- Raised by `exec` for an instruction that has no meaning yet; no instruction is left so. Safe. -/
  | notModelled (mnemonic : String)
  deriving DecidableEq, Repr

/-- Right after reset, 10_state.md R23, 70_reset_and_hazards.md R115. The accumulator's 0 is the
spec's decision D2 (log entry 1); the program is the empty one until the host supplies one with the
reset (`boot` in Machine/HostInterface.lean; log entry 9). -/
def State.reset : State where
  pc := 0
  acc := Config.accReset
  mem := []
  fault := none
  prog := []

end Sys2Proof.Machine
end

