-- ==== Sys2Proof/Machine/Ops.lean ====
section
/-! DEFINITION. The named operations over registers and memory, taking a fault, and the predicates
of 10_state.md R20. There is no return from a fault to put beside taking one: "non-resumable",
60_exceptions.md R105. -/

namespace Sys2Proof.Machine

/-! ### Cells -/

/-- The content of cell `i`. -/
def Memory.read (i : Nat) : Memory → Word
  | [] => Memory.unlisted
  | (a, v) :: m => if a = i then v else Memory.read i m

/-- Forget what is listed for cell `i`. -/
def Memory.erase (i : Nat) (m : Memory) : Memory := m.filter fun c => c.1 ≠ i

/-- List `v` for cell `i`, in rising order of addresses. -/
def Memory.insert (i : Nat) (v : Word) : Memory → Memory
  | [] => [(i, v)]
  | (a, w) :: m => if i < a then (i, v) :: (a, w) :: m else (a, w) :: Memory.insert i v m

/-- Make cell `i` hold `v`, every other cell unchanged; the value of an unlisted cell is not listed. -/
def Memory.write (i : Nat) (v : Word) (m : Memory) : Memory :=
  if v = Memory.unlisted then Memory.erase i m else Memory.insert i v (Memory.erase i m)

/-- Canonical from address `lo` on: strictly rising addresses of cells that exist, no entry equal to
what an unlisted cell holds. -/
def Memory.wfFrom (lo : Nat) : Memory → Bool
  | [] => true
  | (a, v) :: m => lo ≤ a && a < Config.memCells && v ≠ Memory.unlisted && Memory.wfFrom (a + 1) m

/-- The canonical form of the data memory; cells 0..1023 are all there is, 20_memory.md R35. -/
def Memory.wf (m : Memory) : Bool := Memory.wfFrom 0 m

/-! ### Registers -/

def State.setAcc (v : Word) (s : State) : State := { s with acc := v }

def State.setMem (m : Memory) (s : State) : State := { s with mem := m }

/-- `pc <- pc + len`, the only write to the program counter, 40_fetch_decode.md R69. -/
def State.advance (len : Nat) (s : State) : State := { s with pc := s.pc + len }

/-! ### The run's stream -/

/-- `L`, 00_scope.md R4. -/
def State.len (s : State) : Nat := s.prog.length

/-- The bytes from the program counter to the frame boundary. -/
def State.remaining (s : State) : List Byte := s.prog.drop s.pc

/-! ### Data memory access, 20_memory.md R32 to R34. The error is the index out of range. -/

/-- `MemRead(addr, 1)`, 20_memory.md R33. -/
def memRead (addr : Nat) (s : State) : Except Nat Word :=
  if addr < Config.memCells then .ok (s.mem.read addr) else .error addr

/-- `MemWrite(addr, 1, v)`, 20_memory.md R34. -/
def memWrite (addr : Nat) (v : Word) (s : State) : Except Nat State :=
  if addr < Config.memCells then .ok (s.setMem (s.mem.write addr v)) else .error addr

/-! ### Taking a fault -/

/-- Raise a fault: `fault <- (cause, pc, info)` and nothing more. No handler, no vector, no saved
state, no mode change, 60_exceptions.md R102, R103. -/
def State.raise (cause : FaultCause) (info : Nat) (s : State) : State :=
  { s with fault := some { cause := cause, offset := s.pc, info := info } }

/-- End an instruction of width `len` begun in `s`: with its effect done, advance; with a cell index
out of range, raise `BoundsError` from `s`, so that nothing else changes, 40_fetch_decode.md R71. -/
def finish (len : Nat) (s : State) : Except Nat State → Host.Outcome State Fault Refusal
  | .ok t => .next (t.advance len)
  | .error index => .next (s.raise .boundsError index)

/-! ### Derived status, 10_state.md R20 -/

/-- A step exists, 40_fetch_decode.md R60. -/
abbrev State.Running (s : State) : Prop := s.fault = none ∧ s.pc < s.len

/-- The run has ended normally. -/
abbrev State.Done (s : State) : Prop := s.fault = none ∧ s.pc = s.len

/-- The run has been aborted. -/
abbrev State.Faulted (s : State) : Prop := s.fault ≠ none

end Sys2Proof.Machine
end

