-- ==== Sys2Proof/Machine/Operands.lean ====
section
/-! DEFINITION. The operand forms and the one arithmetic operation. There are no flags to compute
(10_state.md R17), so the package has no Flags file. -/

namespace Sys2Proof.Machine

/-- The immediate of LOAD_CONST, zero-extended, 30_encoding.md R50, 43_shift.md R87(a). -/
def immediate (imm : Field) : Word := imm.setWidth 32

/-- Register indirect through `acc`: the whole value, not masked, 20_memory.md R27, 41_load.md R76. -/
def indirectIndex (s : State) : Nat := s.acc.toNat

/-- Absolute: the address field as it stands, not scaled and not masked, 20_memory.md R27,
30_encoding.md R51. -/
def absoluteIndex (addr : Field) : Nat := addr.toNat

/-- `a >> n = floor(a / 2^n)` with the whole amount `n`, zeros entering at the top, 43_shift.md R85,
R86. DESIGN CHOICE: the spec's decision D4 takes the logical kind and does not reduce the amount;
log entry 3. -/
def shiftRight (a : Word) (n : Nat) : Word := a >>> n

end Sys2Proof.Machine
end

