-- ==== Sys2Proof/Machine/Load.lean ====
section
/-! DEFINITION. LOAD_CONST and LOAD_MEM, 41_load.md. -/

namespace Sys2Proof.Machine

/-- LOAD_CONST, 41_load.md R75: no memory access, so no fault of its own. -/
def execLoadConst (imm : Field) (s : State) : Host.Outcome State Fault Refusal :=
  finish Opcode.loadConst.width s (.ok (s.setAcc (immediate imm)))

/-- LOAD_MEM, 41_load.md R76: the address is the old accumulator. -/
def execLoadMem (s : State) : Host.Outcome State Fault Refusal :=
  finish Opcode.loadMem.width s ((memRead (indirectIndex s) s).map fun v => s.setAcc v)

end Sys2Proof.Machine
end

