-- ==== Sys2Proof/Machine/Shift.lean ====
section
/-! DEFINITION. SHR, 43_shift.md. -/

namespace Sys2Proof.Machine

/-- SHR, 43_shift.md R85: the amount is the whole value of the cell. -/
def execShr (addr : Field) (s : State) : Host.Outcome State Fault Refusal :=
  finish Opcode.shr.width s
    ((memRead (absoluteIndex addr) s).map fun n => s.setAcc (shiftRight s.acc n.toNat))

end Sys2Proof.Machine
end

