-- ==== Sys2Proof/Machine/Store.lean ====
section
/-! DEFINITION. STORE_MEM, 42_store.md. -/

namespace Sys2Proof.Machine

/-- STORE_MEM, 42_store.md R80: the whole accumulator is stored. -/
def execStoreMem (addr : Field) (s : State) : Host.Outcome State Fault Refusal :=
  finish Opcode.storeMem.width s (memWrite (absoluteIndex addr) s.acc s)

end Sys2Proof.Machine
end

