-- ==== Sys2Proof/Machine/Dispatch.lean ====
section
/-! DEFINITION. From an instruction to its meaning, one arm per constructor. -/

namespace Sys2Proof.Machine

/-- The effect of a decoded instruction, 40_fetch_decode.md R71. The frame check and the check that
the machine is running come before it (log entry 13). -/
def exec (i : Instr) (s : State) : Host.Outcome State Fault Refusal :=
  match i with
  | .loadConst imm => Sys2Proof.Machine.execLoadConst imm s
  | .loadMem => Sys2Proof.Machine.execLoadMem s
  | .storeMem addr => Sys2Proof.Machine.execStoreMem addr s
  | .shr addr => Sys2Proof.Machine.execShr addr s

end Sys2Proof.Machine
end

