-- ==== Sys2Proof/Machine/Streamer.lean ====
section
/-! DEFINITION. The STREAMER (00_scope.md R2): fetching at the program counter, the faults a fetch
raises, the frame boundary, and placing bytes where the next fetch reads them. -/

namespace Sys2Proof.Machine

/-- Fetch and decode at `pc`, at any byte offset, 40_fetch_decode.md R61 to R68, 20_memory.md R30.
Nothing before `pc` and nothing but the bytes `prog` holds is read. -/
def fetch (s : State) : DecodeResult := decode s.remaining

/-- 60_exceptions.md R96. -/
def raiseUnknownOpcode (nibble : Nibble) (s : State) : State := s.raise .unknownOpcode nibble.toNat

/-- 60_exceptions.md R97 (DESIGN CHOICE, the spec's decision D5; log entry 4). -/
def raiseTruncated (len : Nat) (s : State) : State := s.raise .truncatedInstruction len

/-- No byte at `pc`: the run is done when `pc = L`, 40_fetch_decode.md R62; log entries 10, 11. -/
def endStop (s : State) : Fault := if s.pc = s.len then .runDone else .pcPastEnd

/-- The first `n` bytes of `bs`, zeros where it is shorter. -/
def padTo (n : Nat) (bs : List Byte) : List Byte := bs.take n ++ List.replicate (n - bs.length) 0x00#8

/-- `bs` with `code` at `offset`, longer if need be. -/
def overwrite (bs : List Byte) (offset : Nat) (code : List Byte) : List Byte :=
  padTo offset bs ++ code ++ bs.drop (offset + code.length)

end Sys2Proof.Machine
end

