-- ==== Sys2Proof/Machine/Step.lean ====
section
/-! DEFINITION. The whole step, 40_fetch_decode.md R60 and R71. -/

namespace Sys2Proof.Machine

/-- One step: one instruction, or one fault recorded, or no step at all. -/
def step (s : State) : Host.Outcome State Fault Refusal :=
  match s.fault with
  | some r => .fault (.runFaulted r)
  | none =>
    match fetch s with
    | .instr i => exec i s
    | .unknownOpcode nibble => .next (raiseUnknownOpcode nibble s)
    | .truncated len => .next (raiseTruncated len s)
    | .endOfStream => .fault (endStop s)

/-- `s` with the instruction of a table word stored where the next step fetches: at `pc` in `prog`,
which grows if it is too short; the fault record is cleared, because a faulted machine fetches
nothing. Stands for the host's loading of a program; log entries 9, 15. -/
def State.withFetchWord (s : State) (nbits w : Nat) : State :=
  { s with prog := overwrite s.prog s.pc (tableBytes nbits w), fault := none }

end Sys2Proof.Machine
end

