-- ==== Sys2Proof/Machine/HostInterface.lean ====
section
/-! DEFINITION. What the host does before and after a run, 70_reset_and_hazards.md R115 to R125. -/

namespace Sys2Proof.Machine

/-- Reset with a program: the only way to supply one, and nothing survives it, so that the state
before it is no argument, 70_reset_and_hazards.md R115, R117, R118; log entries 9, 21. -/
def boot (prog : List Byte) : State := { State.reset with prog := prog }

/-- What the host can tell of a state, 10_state.md R20, 60_exceptions.md R106. -/
inductive Status
  | running
  | done
  /-- Aborted, with the cause and the byte offset the host must be able to read. -/
  | faulted (r : FaultRecord)
  /-- `pc > L`, which no run reaches, 10_state.md R24. -/
  | pastEnd
  deriving DecidableEq, Repr

def status (s : State) : Status :=
  match s.fault with
  | some r => .faulted r
  | none => if s.pc < s.len then .running else if s.pc = s.len then .done else .pastEnd

/-- At most `k` steps, staying where no step exists, 40_fetch_decode.md R60. -/
def runFor : Nat → State → State
  | 0, s => s
  | k + 1, s =>
    match step s with
    | .next t => runFor k t
    | .fault _ => s
    | .refused _ => s

/-- The end of the run from `s`: every step but a faulting one uses up at least one byte,
40_fetch_decode.md R70, 70_reset_and_hazards.md R125. -/
def runToEnd (s : State) : State := runFor s.len s

/-- What reading the result gives, 70_reset_and_hazards.md R120, R121. -/
inductive ReadOut
  /-- The cells of the range, in rising order of index. -/
  | cells (values : List Word)
  /-- The run has not ended done: there is no result. -/
  | noResult
  /-- A range outside `0 <= start <= stop <= 1024` is refused (DESIGN CHOICE, the spec's decision
  D11; log entry 16). -/
  | badRange
  deriving DecidableEq, Repr

/-- The cells `start .. stop - 1` of the data memory, a pure read, 70_reset_and_hazards.md R120. -/
def readOut (start stop : Nat) (s : State) : ReadOut :=
  if s.Done then
    if start ≤ stop ∧ stop ≤ Config.memCells then
      .cells ((List.range' start (stop - start)).map fun i => s.mem.read i)
    else .badRange
  else .noResult

/-- What the host may read of a faulted state, for diagnosis and as no result,
60_exceptions.md R106, 70_reset_and_hazards.md R121. -/
structure Diagnosis where
  record : FaultRecord
  pc : Nat
  acc : Word
  mem : Memory
  deriving DecidableEq, Repr

def diagnose (s : State) : Option Diagnosis :=
  s.fault.map fun r => { record := r, pc := s.pc, acc := s.acc, mem := s.mem }

end Sys2Proof.Machine
end

