-- ==== Sys2Proof/Reference.lean ====
section
/-! DEFINITION. The step of 40_fetch_decode.md R71 written a second time, in the arithmetic of natural
numbers alone and with an accumulator and cells of unbounded width (the document's reference,
10_state.md R15(b)). The machine is claimed to refine it. -/

namespace Sys2Proof.Reference

open Sys2Proof.Machine

/-- The state of R71: `fault` is the triple of numbers of 10_state.md R19. -/
structure RefState where
  pc : Nat
  acc : Nat
  mem : Nat → Nat
  fault : Option (Nat × Nat × Nat)

/-- `PROG[i]`, 00_scope.md section 5.2. -/
def byteAt (prog : List Byte) (i : Nat) : Nat := (prog.getD i 0x00#8).toNat

/-- `f = W >> 4`, 40_fetch_decode.md R67. -/
def operandAt (prog : List Byte) (pc : Nat) : Nat :=
  (byteAt prog pc + 2 ^ 8 * byteAt prog (pc + 1) + 2 ^ 16 * byteAt prog (pc + 2)
    + 2 ^ 24 * byteAt prog (pc + 3)) / 2 ^ 4

/-- The width the nibble selects, 40_fetch_decode.md R64. -/
def widthOf (op : Nat) : Option Nat :=
  if op = 0xD then some 4 else if op = 0x5 then some 1
  else if op = 0xC then some 5 else if op = 0x1 then some 5 else none

/-- `raise`: only the fault record changes, 60_exceptions.md R103. -/
def raise (r : RefState) (cause info : Nat) : RefState := { r with fault := some (cause, r.pc, info) }

/-- The effect of the instruction with nibble `op` and operand `f`, without the advance; `none` is a
cell index out of range, and the number beside it is that index. -/
def effect (op f : Nat) (r : RefState) : Option RefState × Nat :=
  if op = 0xD then (some { r with acc := f }, 0)
  else if op = 0x5 then
    if r.acc < 1024 then (some { r with acc := r.mem r.acc }, 0) else (none, r.acc)
  else if op = 0xC then
    if f < 1024 then (some { r with mem := fun i => if i = f then r.acc else r.mem i }, 0)
    else (none, f)
  else
    if f < 1024 then (some { r with acc := r.acc / 2 ^ r.mem f }, 0) else (none, f)

/-- The step of R71, on running states. -/
def refStep (prog : List Byte) (r : RefState) : RefState :=
  let op := byteAt prog r.pc % 16
  match widthOf op with
  | none => raise r 1 op
  | some len =>
    if r.pc + len > prog.length then raise r 2 len
    else
      match effect op (operandAt prog r.pc) r with
      | (some r', _) => { r' with pc := r'.pc + len }
      | (none, index) => raise r 3 index

/-- A machine state seen as numbers. -/
def view (s : State) : RefState where
  pc := s.pc
  acc := s.acc.toNat
  mem := fun i => (s.mem.read i).toNat
  fault := s.fault.map fun r => (r.cause.number, r.offset, r.info)

/-- `k` steps of R71, staying where no step exists. -/
def refRun (prog : List Byte) : Nat → RefState → RefState
  | 0, r => r
  | k + 1, r => if r.fault = none ∧ r.pc < prog.length then refRun prog k (refStep prog r) else r

end Sys2Proof.Reference
end

