-- ==== Sys2Proof/Machine/Assembler.lean ====
section
/-! DEFINITION. The assembler (the document's Encoder), 30_encoding.md R55 to R59: from lines of text
to the program's bytes, with the document's own byte arithmetic. It is no part of the core. -/

namespace Sys2Proof.Assembler

/-- A source line understood: its operand is any natural number, for magnitudes are not checked,
30_encoding.md R55, R56, R58; log entry 18. -/
inductive Line
  | loadConst (value : Nat)
  | loadMem
  | storeMem (address : Nat)
  | shr (address : Nat)
  deriving DecidableEq, Repr

/-- Why a line is a ParseError, 30_encoding.md R59 and decision D12 (log entry 17). -/
inductive ParseReason
  | blankLine
  | unknownMnemonic
  | missingOperand
  | extraOperand
  | nonIntegerOperand
  deriving DecidableEq, Repr

/-- "reported with the offending line number", counted from 1 (DESIGN CHOICE, log entry 17). -/
structure ParseError where
  line : Nat
  reason : ParseReason
  deriving DecidableEq, Repr

/-! ### From text to lines -/

/-- Tokens are separated by spaces or tabs, decision D12. -/
def isBlank (c : Char) : Bool := c = ' ' || c = '\t'

/-- The tokens of a line, `word` being the one under way, last character first. -/
def tokensFrom (word : List Char) : List Char → List (List Char)
  | [] => if word = [] then [] else [word.reverse]
  | c :: cs =>
    if isBlank c then
      if word = [] then tokensFrom [] cs else word.reverse :: tokensFrom [] cs
    else tokensFrom (c :: word) cs

/-- A decimal digit, '0' to '9' alone. -/
def isDecimal (c : Char) : Bool := 48 ≤ c.toNat && c.toNat ≤ 57

/-- The value of a decimal digit. -/
def digitValue (c : Char) : Nat := c.toNat - 48

/-- The value of a string of digits, base 10, most significant first. -/
def decimalValue (cs : List Char) : Nat := cs.foldl (fun n c => 10 * n + digitValue c) 0

/-- A non-empty string of decimal digits, no sign, 30_encoding.md R55 and decision D12. -/
def parseDecimal (cs : List Char) : Option Nat :=
  if cs ≠ [] ∧ cs.all isDecimal then some (decimalValue cs) else none

def oneOperand (mk : Nat → Line) : List (List Char) → Except ParseReason Line
  | [] => .error .missingOperand
  | [t] =>
    match parseDecimal t with
    | some n => .ok (mk n)
    | none => .error .nonIntegerOperand
  | _ :: _ :: _ => .error .extraOperand

def noOperand (line : Line) : List (List Char) → Except ParseReason Line
  | [] => .ok line
  | _ :: _ => .error .extraOperand

/-- The mnemonics, upper case with the underscore as shown, 30_encoding.md R55. -/
def mnemonic : Opcode → List Char
  | .loadConst => ['L', 'O', 'A', 'D', '_', 'C', 'O', 'N', 'S', 'T']
  | .loadMem => ['L', 'O', 'A', 'D', '_', 'M', 'E', 'M']
  | .storeMem => ['S', 'T', 'O', 'R', 'E', '_', 'M', 'E', 'M']
  | .shr => ['S', 'H', 'R']

def parseTokens : List (List Char) → Except ParseReason Line
  | [] => .error .blankLine
  | m :: operands =>
    if m = mnemonic .loadConst then oneOperand .loadConst operands
    else if m = mnemonic .loadMem then noOperand .loadMem operands
    else if m = mnemonic .storeMem then oneOperand .storeMem operands
    else if m = mnemonic .shr then oneOperand .shr operands
    else .error .unknownMnemonic

/-- One line of source, 30_encoding.md R55. -/
def parseLine (text : List Char) : Except ParseReason Line := parseTokens (tokensFrom [] text)

/-! ### From lines to bytes -/

/-- The four bytes of `(0xD) | (operand << 4)`, little-endian; what lies at bit 32 and above is not
emitted, 30_encoding.md R56, 90_conflicts.md C4. -/
def constantBytes (value : Nat) : List Byte := leBytes 4 (0xD ||| value <<< 4)

/-- A 32-bit value, most significant byte first: the Encoder's big-endian field, 30_encoding.md R58. -/
def beBytes4 (w : Nat) : List Byte := (leBytes 4 w).reverse

/-- Byte 0 is `(opcode | (address << 4)) & 0xFF`, bytes 1 to 4 the big-endian field
`((address >> 4) & 0xFF) << 24`, 30_encoding.md R58. -/
def addressBytes (op : Opcode) (address : Nat) : List Byte :=
  BitVec.ofNat 8 ((op.nibble.toNat ||| address <<< 4) &&& 0xFF)
    :: beBytes4 (((address >>> 4) &&& 0xFF) <<< 24)

/-- The bytes of a line, 30_encoding.md R56 to R58. -/
def Line.bytes : Line → List Byte
  | .loadConst value => constantBytes value
  | .loadMem => [0x05#8]
  | .storeMem address => addressBytes .storeMem address
  | .shr address => addressBytes .shr address

/-- The instruction a line stands for once the Encoder has cut its operand: a constant modulo `2^28`
(30_encoding.md R56), an address modulo 4096 (R58). -/
def Line.meant : Line → Instr
  | .loadConst value => .loadConst (BitVec.ofNat 28 value)
  | .loadMem => .loadMem
  | .storeMem address => .storeMem (BitVec.ofNat 28 (address % 4096))
  | .shr address => .shr (BitVec.ofNat 28 (address % 4096))

/-- The lines of a source numbered from `n`; the first bad one aborts the pass and nothing is
emitted, 30_encoding.md R59, 93_implementation_defined.md U6. -/
def parseFrom (n : Nat) : List (List Char) → Except ParseError (List Line)
  | [] => .ok []
  | text :: rest =>
    match parseLine text with
    | .error reason => .error { line := n, reason := reason }
    | .ok line =>
      match parseFrom (n + 1) rest with
      | .error e => .error e
      | .ok lines => .ok (line :: lines)

/-- The concatenation of the encodings in input order, nothing between them, 30_encoding.md R55. -/
def emit (lines : List Line) : List Byte := lines.flatMap Line.bytes

/-- The assembler: a source, given as its lines (reading a file line by line is outside the
hardware, 00_scope.md section 3.2), to the program's bytes. -/
def assemble (source : List (List Char)) : Except ParseError (List Byte) :=
  match parseFrom 1 source with
  | .error e => .error e
  | .ok lines => .ok (emit lines)

end Sys2Proof.Assembler
end

