-- ==== Sys2Proof/WellFormed.lean ====
section
/-! DEFINITION. The checks on an instruction. The operand's width is in its type, so every term of
`Instr` is an instruction the decoder can yield; what can still be asked is whether the assembler
can emit it (30_encoding.md R53) and whether its address names a cell (20_memory.md R43). -/

namespace Sys2Proof

/-- The assembler can emit the instruction: an address has its bits 27:12 zero, while every
immediate is canonical, 30_encoding.md R46, R47, R53. -/
def Instr.canonical : Instr → Bool
  | .loadConst _ => true
  | .loadMem => true
  | .storeMem addr => addr.toNat < 2 ^ Config.canonicalAddrBits
  | .shr addr => addr.toNat < 2 ^ Config.canonicalAddrBits

/-- The address in the instruction, if it has one, names a cell that exists: the static part of
what software must respect, 70_reset_and_hazards.md R126. -/
def Instr.inBounds : Instr → Bool
  | .loadConst _ => true
  | .loadMem => true
  | .storeMem addr => addr.toNat < Config.memCells
  | .shr addr => addr.toNat < Config.memCells

end Sys2Proof
end

