-- ==== Sys2Proof/Machine/Listing.lean ====
section
/-! DEFINITION. Listings: the text of an instruction (30_encoding.md section 8), and the cutting of a
stream into instructions without executing it (40_fetch_decode.md R70). -/

namespace Sys2Proof

/-- The decoded instruction in words: the mnemonic, a space, the field in decimal,
30_encoding.md section 8; log entry 20. -/
def Instr.listing : Instr → List Char
  | .loadConst imm => Assembler.mnemonic .loadConst ++ ' ' :: Nat.toDigits 10 imm.toNat
  | .loadMem => Assembler.mnemonic .loadMem
  | .storeMem addr => Assembler.mnemonic .storeMem ++ ' ' :: Nat.toDigits 10 addr.toNat
  | .shr addr => Assembler.mnemonic .shr ++ ' ' :: Nat.toDigits 10 addr.toNat

/-- Where cutting a stream into instructions ends, 40_fetch_decode.md R70. -/
inductive SweepEnd
  /-- Exactly at the frame boundary. -/
  | atEnd
  /-- At the first illegal nibble: decoding cannot resynchronise after it, 30_encoding.md R45. -/
  | unknownOpcode (nibble : Nibble)
  /-- At a frame that runs past the stream. -/
  | truncated (len : Nat)
  deriving DecidableEq, Repr

/-- The instructions of a stream in order, and how the stream ends. -/
structure Sweep where
  instrs : List Instr
  stop : SweepEnd
  deriving DecidableEq, Repr

/-- The sweep of the stream after its first `skip` bytes. -/
def sweepAfter (skip : Nat) : List Byte → Sweep
  | [] => { instrs := [], stop := .atEnd }
  | b :: bs =>
    match skip with
    | k + 1 => sweepAfter k bs
    | 0 =>
      match decode (b :: bs) with
      | .instr i =>
        let rest := sweepAfter (i.width - 1) bs
        { rest with instrs := i :: rest.instrs }
      | .unknownOpcode nibble => { instrs := [], stop := .unknownOpcode nibble }
      | .truncated len => { instrs := [], stop := .truncated len }
      | .endOfStream => { instrs := [], stop := .atEnd }

/-- The instructions of a stream, found from the opcode nibbles alone. -/
def sweep (bs : List Byte) : Sweep := sweepAfter 0 bs

/-- What software must respect that a stream shows by itself: legal nibbles at every boundary, an
end exactly at a boundary, STORE_MEM and SHR addresses below 1024, 70_reset_and_hazards.md R126. -/
def statSound (bs : List Byte) : Bool :=
  (sweep bs).stop = .atEnd && (sweep bs).instrs.all Instr.inBounds

end Sys2Proof
end

