-- ==== Sys2Proof/Safety.lean ====
section
/-! DEFINITION. What claims about runs speak of: the invariants of 10_state.md (R15, R19, R24), and
what counts as an ended, a successful and a safe run (70_reset_and_hazards.md R125, R126). -/

namespace Sys2Proof.Safety

open Sys2Proof.Machine

/-- 10_state.md R15: the accumulator and every cell are below `2^28`. -/
def inRange (s : State) : Bool :=
  s.acc.toNat < 2 ^ 28 && s.mem.all fun c => c.2.toNat < 2 ^ 28

/-- 10_state.md R24. -/
def pcInStream (s : State) : Bool := s.pc ≤ s.len

/-- What a fault record of each cause says of the instruction at `pc`, 10_state.md R19,
60_exceptions.md R95 to R98. -/
def recordTrue (s : State) (r : FaultRecord) : Bool :=
  r.offset = s.pc && s.pc < s.len &&
    match r.cause with
    | .unknownOpcode =>
      match fetch s with
      | .unknownOpcode nibble => r.info = nibble.toNat
      | _ => false
    | .truncatedInstruction => fetch s = .truncated r.info
    | .boundsError =>
      Config.memCells ≤ r.info &&
        match fetch s with
        | .instr .loadMem => r.info = s.acc.toNat
        | .instr (.storeMem addr) => r.info = addr.toNat
        | .instr (.shr addr) => r.info = addr.toNat
        | _ => false

/-- A fault record, once there, stays true of the state it was raised in. -/
def faultTrue (s : State) : Bool :=
  match s.fault with
  | none => true
  | some r => recordTrue s r

/-- The invariant of the machine. -/
abbrev Inv (s : State) : Prop :=
  s.mem.wf = true ∧ inRange s = true ∧ pcInStream s = true ∧ faultTrue s = true

/-- The run has ended: no step exists, 70_reset_and_hazards.md R125. -/
abbrev Ended (s : State) : Prop := s.Done ∨ s.Faulted

/-- The store the step from `s` to `t` completed, if it completed one: the cell and the value. -/
def storeOf (s t : State) : List (Nat × Word) :=
  match fetch s with
  | .instr (.storeMem addr) => if t.fault = none then [(absoluteIndex addr, s.acc)] else []
  | _ => []

/-- The stores completed in at most `k` steps, newest first, 20_memory.md R37. -/
def storeLog : Nat → State → List (Nat × Word)
  | 0, _ => []
  | k + 1, s =>
    match step s with
    | .next t => storeLog k t ++ storeOf s t
    | .fault _ => []
    | .refused _ => []

/-- The value of cell `i` after the stores of a log, where `v` was its value before them. -/
def latest (i : Nat) (v : Word) (log : List (Nat × Word)) : Word :=
  match log.find? fun c => c.1 = i with
  | some c => c.2
  | none => v

/-- What is left of the stream can fail only through a LOAD_MEM, 70_reset_and_hazards.md R126. -/
def restSound (s : State) : Bool := statSound s.remaining

end Sys2Proof.Safety
end

