-- ==== Sys2Proof/Certificates/Slice0/Obligations.lean ====
section
/-! DEFINITION. The statements for the provers. Each docstring names the rule it formalises; where a
statement rests on a decision of the spec (92_eei_decisions.md) or on a choice of the model, it says
so and names the log entry. -/

open Sys2Proof Sys2Proof.Machine Sys2Proof.Assembler

/-! ### Encoding and decoding -/

/-- Seven strings of 95_test_vectors.md section 2.1, one of each family and the corners of the ignored
bits; the illegal `0E` of its section 2.2; and a STORE_MEM that lacks its fifth byte, which section
2.2 has as the tail of a stream of 8 bytes. That the last is truncated although its whole window is
there is the spec's decision D5, log entry 4. -/
def Obligations.SampleWordsDecode : Prop :=
  decode [0x7D#8, 0x56#8, 0x34#8, 0x12#8] = .instr (.loadConst 0x1234567#28) ∧
  decode [0xFD#8, 0xFF#8, 0xFF#8, 0xFF#8] = .instr (.loadConst 0xFFFFFFF#28) ∧
  decode [0x05#8] = .instr .loadMem ∧
  decode [0xF5#8] = .instr .loadMem ∧
  decode [0x3C#8, 0x12#8, 0x00#8, 0x00#8, 0x00#8] = .instr (.storeMem 0x123#28) ∧
  decode [0x3C#8, 0x00#8, 0x00#8, 0x80#8, 0x00#8] = .instr (.storeMem 0x8000003#28) ∧
  decode [0x51#8, 0x2A#8, 0x00#8, 0x00#8, 0x00#8] = .instr (.shr 0x2A5#28) ∧
  decode [0x3C#8, 0x00#8, 0x00#8, 0x00#8] = .truncated 5 ∧
  decode [0x0E#8] = .unknownOpcode 0xE#4

/-- Decoding an encoded instruction gives it back, with every operand, whatever follows it
(30_encoding.md R53; 95_test_vectors.md E1 to E3). -/
def Obligations.DecodeEncodeRoundTrip : Prop :=
  ∀ (i : Instr) (rest : List Byte), decode (encode i ++ rest) = .instr i

/-- Exactly which byte strings each instruction is decoded from: its own encoding up to the bits the
decoder ignores, the high nibble of LOAD_MEM and the fifth byte of format A (30_encoding.md R46 to
R48, R53). -/
def Obligations.DecodedExactlyFromItsEncodings : Prop :=
  ∀ (bs : List Byte) (i : Instr), decode bs = .instr i ↔
    match i with
    | .loadConst imm => ∃ rest, bs = encode (.loadConst imm) ++ rest
    | .loadMem => ∃ b rest, bs = b :: rest ∧ b.toNat % 16 = 0x5
    | .storeMem addr => ∃ b4 rest, bs = (encode (.storeMem addr)).take 4 ++ b4 :: rest
    | .shr addr => ∃ b4 rest, bs = (encode (.shr addr)).take 4 ++ b4 :: rest

/-- 30_encoding.md R45: the low nibble of byte 0 alone, whatever its high nibble and the bytes after
it, gives the instruction and its length of 4, 1, 5 or 5 bytes; any other nibble gives none. -/
def Obligations.LowNibbleGivesLength : Prop :=
  ∀ (b0 : Byte) (rest : List Byte),
    (b0.toNat % 16 = 0xD →
      (∀ i, decode (b0 :: rest) = .instr i → i.opcode = .loadConst ∧ i.width = 4) ∧
      (4 ≤ (b0 :: rest).length → ∃ i, decode (b0 :: rest) = .instr i)) ∧
    (b0.toNat % 16 = 0x5 →
      decode (b0 :: rest) = .instr .loadMem ∧ Instr.loadMem.width = 1) ∧
    (b0.toNat % 16 = 0xC →
      (∀ i, decode (b0 :: rest) = .instr i → i.opcode = .storeMem ∧ i.width = 5) ∧
      (5 ≤ (b0 :: rest).length → ∃ i, decode (b0 :: rest) = .instr i)) ∧
    (b0.toNat % 16 = 0x1 →
      (∀ i, decode (b0 :: rest) = .instr i → i.opcode = .shr ∧ i.width = 5) ∧
      (5 ≤ (b0 :: rest).length → ∃ i, decode (b0 :: rest) = .instr i)) ∧
    (b0.toNat % 16 ∉ [0xD, 0x5, 0xC, 0x1] →
      decode (b0 :: rest) = .unknownOpcode (BitVec.ofNat 4 b0.toNat))

/-- 30_encoding.md R50: the immediate is `W >> 4`, in terms of the bytes too, and the accumulator
gets it zero-extended. -/
def Obligations.ImmediateIsWindowShiftedByFour : Prop :=
  ∀ (b0 b1 b2 b3 : Byte) (rest : List Byte) (s : State), b0.toNat % 16 = 0xD →
    ∃ (imm : Field) (t : State),
      decode (b0 :: b1 :: b2 :: b3 :: rest) = .instr (.loadConst imm) ∧
      imm.toNat = (b0.toNat + 2 ^ 8 * b1.toNat + 2 ^ 16 * b2.toNat + 2 ^ 24 * b3.toNat) / 2 ^ 4 ∧
      imm.toNat = b0.toNat / 16 + 16 * b1.toNat + 4096 * b2.toNat + 1048576 * b3.toNat ∧
      exec (.loadConst imm) s = .next t ∧ t.acc.toNat = imm.toNat

/-- 30_encoding.md section 4 (R51): the address of STORE_MEM and SHR by the same arithmetic, no bit
masked, whatever the fifth byte holds. -/
def Obligations.AddressIsWindowShiftedByFour : Prop :=
  ∀ (b0 b1 b2 b3 b4 : Byte) (rest : List Byte),
    (b0.toNat % 16 = 0xC →
      ∃ addr : Field, decode (b0 :: b1 :: b2 :: b3 :: b4 :: rest) = .instr (.storeMem addr) ∧
        absoluteIndex addr =
          b0.toNat / 16 + 16 * b1.toNat + 4096 * b2.toNat + 1048576 * b3.toNat) ∧
    (b0.toNat % 16 = 0x1 →
      ∃ addr : Field, decode (b0 :: b1 :: b2 :: b3 :: b4 :: rest) = .instr (.shr addr) ∧
        absoluteIndex addr =
          b0.toNat / 16 + 16 * b1.toNat + 4096 * b2.toNat + 1048576 * b3.toNat)

/-- 30_encoding.md R53 (a consequence the spec marks as derived): a crafted STORE_MEM or SHR with
byte 2 or byte 3 not zero is the same instruction and always raises `BoundsError` with its whole
address; it is never brought back into range. -/
def Obligations.NonzeroHighAddressBytesAlwaysFault : Prop :=
  ∀ (s : State) (b0 b1 b2 b3 b4 : Byte) (rest : List Byte),
    s.fault = none → s.remaining = b0 :: b1 :: b2 :: b3 :: b4 :: rest →
    (b0.toNat % 16 = 0xC ∨ b0.toNat % 16 = 0x1) → (b2 ≠ 0x00#8 ∨ b3 ≠ 0x00#8) →
    ∃ index, 4096 ≤ index ∧
      index = b0.toNat / 16 + 16 * b1.toNat + 4096 * b2.toNat + 1048576 * b3.toNat ∧
      step s = .next { s with fault := some ⟨.boundsError, s.pc, index⟩ }

/-! ### Data memory -/

/-- 20_memory.md R34: `MemWrite` changes one cell, or gives the index back with nothing written. -/
def Obligations.MemWriteChangesOneCell : Prop :=
  ∀ (addr : Nat) (v : Word) (s : State),
    (1024 ≤ addr → memWrite addr v s = .error addr) ∧
    (addr < 1024 → ∃ t, memWrite addr v s = .ok t ∧
      t.mem.read addr = v ∧ (∀ j, j ≠ addr → t.mem.read j = s.mem.read j) ∧
      t.pc = s.pc ∧ t.acc = s.acc ∧ t.fault = s.fault ∧ t.prog = s.prog)

/-- Two memories in canonical form with the same cells are the same data. The canonical form is the
model's choice, log entry 12. -/
def Obligations.CanonicalMemoriesWithEqualCellsAreEqual : Prop :=
  ∀ m m' : Memory, m.wf = true → m'.wf = true → (∀ i, m.read i = m'.read i) → m = m'

/-- 20_memory.md R37: after any number of steps, a cell holds what the latest store of the run to it
wrote, or what it held before if there is none (0 from reset). -/
def Obligations.CellHoldsLatestStore : Prop :=
  (∀ (k : Nat) (s : State) (i : Nat),
    (runFor k s).mem.read i = Safety.latest i (s.mem.read i) (Safety.storeLog k s)) ∧
  ∀ (k : Nat) (bs : List Byte) (i : Nat),
    (runFor k (boot bs)).mem.read i = Safety.latest i 0#32 (Safety.storeLog k (boot bs))

/-- 70_reset_and_hazards.md R123 (derived there from R37): a LOAD_MEM directly after a STORE_MEM to the
cell it indexes reloads the stored value; a SHR by that cell, with a constant loaded between, shifts
the constant by the stored value. That the shift is by the whole stored value, for every value of the
accumulator, is the spec's decision D4 (43_shift.md R85), log entry 3. -/
def Obligations.LoadAndShiftSeeTheStoreBefore : Prop :=
  ∀ (s : State) (addr constant : Field), addr.toNat < 1024 →
    ∃ t, exec (.storeMem addr) s = .next t ∧
      (s.acc.toNat = addr.toNat → ∃ u, exec .loadMem t = .next u ∧ u.acc = s.acc) ∧
      ∃ u v, exec (.loadConst constant) t = .next u ∧ exec (.shr addr) u = .next v ∧
        v.acc.toNat = constant.toNat / 2 ^ s.acc.toNat

/-! ### The four instructions: where they complete, with what, and what they leave alone -/

/-- LOAD_CONST always completes: the accumulator gets the immediate, nothing else but `pc` changes
(41_load.md R75). -/
def Obligations.LoadConstCompletes : Prop :=
  ∀ (imm : Field) (s : State),
    exec (.loadConst imm) s = .next { s with acc := BitVec.ofNat 32 imm.toNat, pc := s.pc + 4 }

/-- LOAD_MEM completes when the accumulator is below 1024: it gets the cell it indexes, nothing else
but `pc` changes (41_load.md R76). -/
def Obligations.LoadMemCompletesInBounds : Prop :=
  ∀ s : State, s.acc.toNat < 1024 →
    exec .loadMem s = .next { s with acc := s.mem.read (indirectIndex s), pc := s.pc + 1 }

/-- STORE_MEM completes when its address is below 1024: that cell holds the accumulator, every other
cell and all else but `pc` is unchanged (42_store.md R80). -/
def Obligations.StoreMemCompletesInBounds : Prop :=
  ∀ (addr : Field) (s : State), addr.toNat < 1024 →
    ∃ t, exec (.storeMem addr) s = .next t ∧
      t.mem.read (absoluteIndex addr) = s.acc ∧
      (∀ j, j ≠ absoluteIndex addr → t.mem.read j = s.mem.read j) ∧
      t.pc = s.pc + 5 ∧ t.acc = s.acc ∧ t.fault = s.fault ∧ t.prog = s.prog

/-- SHR completes when its address is below 1024: the accumulator is divided by two to the whole
content of the cell, nothing else but `pc` changes (43_shift.md R85; the shift by the unmasked
amount is the spec's decision D4, log entry 3). -/
def Obligations.ShrCompletesInBounds : Prop :=
  ∀ (addr : Field) (s : State), addr.toNat < 1024 →
    ∃ v : Word, exec (.shr addr) s = .next { s with acc := v, pc := s.pc + 5 } ∧
      v.toNat = s.acc.toNat / 2 ^ (s.mem.read (absoluteIndex addr)).toNat

/-- 10_state.md R14 and 20_memory.md R27: memory is changed by STORE_MEM alone and in one cell alone,
and STORE_MEM leaves the accumulator as it is. -/
def Obligations.OnlyStoreMemWritesMemory : Prop :=
  ∀ (i : Instr) (s t : State), exec i s = .next t →
    ((∃ j, t.mem.read j ≠ s.mem.read j) →
      ∃ addr, i = .storeMem addr ∧ addr.toNat < 1024 ∧
        ∀ j, j ≠ absoluteIndex addr → t.mem.read j = s.mem.read j) ∧
    (t.acc ≠ s.acc → ∀ addr, i ≠ .storeMem addr)

/-! ### The whole step, rule by rule -/

/-- When the bytes at the program counter decode to an instruction, the step is `exec` of it at this
same state: nothing is added around it (40_fetch_decode.md R71). -/
def Obligations.StepRunsTheDecodedInstruction : Prop :=
  ∀ (s : State) (i : Instr), s.fault = none → decode (s.prog.drop s.pc) = .instr i →
    step s = exec i s

/-- 41_load.md R75, the whole step; raising `TruncatedInstruction` before any effect and by the full
width is the spec's decision D5, log entry 4. -/
def Obligations.LoadConstStep : Prop :=
  ∀ (s : State) (b0 : Byte) (rest : List Byte),
    s.fault = none → s.remaining = b0 :: rest → b0.toNat % 16 = 0xD →
    (s.pc + 4 > s.len →
      step s = .next { s with fault := some ⟨.truncatedInstruction, s.pc, 4⟩ }) ∧
    (∀ b1 b2 b3 more, rest = b1 :: b2 :: b3 :: more →
      ∃ acc : Word, step s = .next { s with acc := acc, pc := s.pc + 4 } ∧
        acc.toNat =
          (b0.toNat + 2 ^ 8 * b1.toNat + 2 ^ 16 * b2.toNat + 2 ^ 24 * b3.toNat) / 2 ^ 4)

/-- 41_load.md R76, the whole step. -/
def Obligations.LoadMemStep : Prop :=
  ∀ (s : State) (b0 : Byte) (rest : List Byte),
    s.fault = none → s.remaining = b0 :: rest → b0.toNat % 16 = 0x5 →
    (s.acc.toNat < 1024 →
      step s = .next { s with acc := s.mem.read s.acc.toNat, pc := s.pc + 1 }) ∧
    (1024 ≤ s.acc.toNat →
      step s = .next { s with fault := some ⟨.boundsError, s.pc, s.acc.toNat⟩ })

/-- 42_store.md R80, the whole step; raising `TruncatedInstruction` before any effect and by the full
width is the spec's decision D5, log entry 4. -/
def Obligations.StoreMemStep : Prop :=
  ∀ (s : State) (b0 : Byte) (rest : List Byte),
    s.fault = none → s.remaining = b0 :: rest → b0.toNat % 16 = 0xC →
    (s.pc + 5 > s.len →
      step s = .next { s with fault := some ⟨.truncatedInstruction, s.pc, 5⟩ }) ∧
    (∀ b1 b2 b3 b4 more addr, rest = b1 :: b2 :: b3 :: b4 :: more →
      addr = (b0.toNat + 2 ^ 8 * b1.toNat + 2 ^ 16 * b2.toNat + 2 ^ 24 * b3.toNat) / 2 ^ 4 →
      (1024 ≤ addr → step s = .next { s with fault := some ⟨.boundsError, s.pc, addr⟩ }) ∧
      (addr < 1024 → ∃ t, step s = .next t ∧ t.mem.read addr = s.acc ∧
        (∀ j, j ≠ addr → t.mem.read j = s.mem.read j) ∧
        t.pc = s.pc + 5 ∧ t.acc = s.acc ∧ t.fault = none ∧ t.prog = s.prog))

/-- 43_shift.md R85, the whole step; the logical shift by the unmasked amount is the spec's decision
D4, log entry 3, and `TruncatedInstruction` before any effect its decision D5, log entry 4. -/
def Obligations.ShrStep : Prop :=
  ∀ (s : State) (b0 : Byte) (rest : List Byte),
    s.fault = none → s.remaining = b0 :: rest → b0.toNat % 16 = 0x1 →
    (s.pc + 5 > s.len →
      step s = .next { s with fault := some ⟨.truncatedInstruction, s.pc, 5⟩ }) ∧
    (∀ b1 b2 b3 b4 more addr, rest = b1 :: b2 :: b3 :: b4 :: more →
      addr = (b0.toNat + 2 ^ 8 * b1.toNat + 2 ^ 16 * b2.toNat + 2 ^ 24 * b3.toNat) / 2 ^ 4 →
      (1024 ≤ addr → step s = .next { s with fault := some ⟨.boundsError, s.pc, addr⟩ }) ∧
      (addr < 1024 → ∃ acc : Word, step s = .next { s with acc := acc, pc := s.pc + 5 } ∧
        acc.toNat = s.acc.toNat / 2 ^ (s.mem.read addr).toNat ∧
        (32 ≤ (s.mem.read addr).toNat → acc = 0#32)))

/-- 60_exceptions.md R96: an illegal nibble at `pc` writes the fault record and nothing else,
whatever follows the byte. -/
def Obligations.IllegalNibbleRaisesUnknownOpcode : Prop :=
  ∀ (s : State) (b0 : Byte) (rest : List Byte),
    s.fault = none → s.remaining = b0 :: rest →
    b0.toNat % 16 ∈ [0x0, 0x2, 0x3, 0x4, 0x6, 0x7, 0x8, 0x9, 0xA, 0xB, 0xE, 0xF] →
    step s = .next { s with fault := some ⟨.unknownOpcode, s.pc, b0.toNat % 16⟩ }

/-- 60_exceptions.md R97: a frame that runs past the stream writes the fault record and nothing else,
even where the four bytes of the window are there; name, point and full width are the spec's decision
D5, log entry 4. That it comes before any `BoundsError` is its decision D7, log entry 7. -/
def Obligations.OverrunRaisesTruncatedInstruction : Prop :=
  ∀ (s : State) (b0 : Byte) (rest : List Byte) (len : Nat),
    s.fault = none → s.remaining = b0 :: rest →
    (b0.toNat % 16 = 0xD ∧ len = 4 ∨ (b0.toNat % 16 = 0xC ∨ b0.toNat % 16 = 0x1) ∧ len = 5) →
    s.pc + len > s.len →
    step s = .next { s with fault := some ⟨.truncatedInstruction, s.pc, len⟩ }

/-- 60_exceptions.md R98: once an instruction has been decoded, the step faults exactly when its cell
index is 1024 or more, and then it writes the fault record and nothing else; LOAD_CONST never does. -/
def Obligations.BoundsErrorExactlyWhenIndexOutOfRange : Prop :=
  ∀ (s : State) (i : Instr), s.fault = none → fetch s = .instr i →
    (∀ index, (i = .loadMem ∧ index = s.acc.toNat ∨
        ∃ addr, (i = .storeMem addr ∨ i = .shr addr) ∧ index = addr.toNat) → 1024 ≤ index →
      step s = .next { s with fault := some ⟨.boundsError, s.pc, index⟩ }) ∧
    (∀ t, step s = .next t → t.fault ≠ none →
      ∃ index, 1024 ≤ index ∧ (i = .loadMem ∧ index = s.acc.toNat ∨
        ∃ addr, (i = .storeMem addr ∨ i = .shr addr) ∧ index = addr.toNat)) ∧
    ∀ imm, i = .loadConst imm → ∃ t, step s = .next t ∧ t.fault = none

/-- 40_fetch_decode.md R60: a step exists exactly in a running state; it executes the instruction
decoded or raises one fault; elsewhere the machine stays as it is. -/
def Obligations.StepExistsExactlyWhenRunning : Prop :=
  ∀ s : State,
    ((∃ t, step s = .next t) ↔ s.fault = none ∧ s.pc < s.prog.length) ∧
    (s.fault = none → s.pc < s.prog.length →
      (∃ i, fetch s = .instr i ∧ step s = exec i s) ∨
        ∃ cause info, (∀ i, fetch s ≠ .instr i) ∧ step s = .next (s.raise cause info)) ∧
    (s.fault = none → s.pc = s.prog.length → ∀ k, runFor k s = s) ∧
    (s.fault ≠ none → ∀ k, runFor k s = s)

/-- 40_fetch_decode.md R69: a step that raises no fault moves `pc` by the width of its instruction,
a step that raises one leaves it. -/
def Obligations.StepAdvancesByWidthUnlessItFaults : Prop :=
  ∀ s t : State, step s = .next t →
    (t.fault = none → ∃ i, fetch s = .instr i ∧ t.pc = s.pc + i.width ∧ s.pc < t.pc) ∧
    (t.fault ≠ none → t.pc = s.pc)

/-- 60_exceptions.md R103 (for `acc`, `pc` and two of the faults the spec's decision D13, log entry
6): the faulting step writes nothing but the fault record, which names the step's own `pc`. -/
def Obligations.FaultingStepWritesOnlyTheRecord : Prop :=
  ∀ s t : State, step s = .next t → t.fault ≠ none →
    ∃ cause info, t = { s with fault := some ⟨cause, s.pc, info⟩ }

/-- 60_exceptions.md R105 and 70_reset_and_hazards.md R121: a fault record is never cleared or
overwritten, no further step is taken, and there is no result. How the model answers where no step
exists is log entry 10. -/
def Obligations.FaultRecordIsSticky : Prop :=
  ∀ (s : State) (r : FaultRecord), s.fault = some r →
    step s = .fault (.runFaulted r) ∧ (∀ k, runFor k s = s) ∧
      ∀ start stop, readOut start stop s = .noResult

/-- 20_memory.md R40: no step changes the program, so the bytes fetched at any offset are the same
before and after it. -/
def Obligations.StoresAreNeverSeenByFetch : Prop :=
  ∀ s t : State, step s = .next t →
    t.prog = s.prog ∧ ∀ pc, fetch { t with pc := pc } = fetch { s with pc := pc }

/-- 40_fetch_decode.md R70: the instruction boundaries are a function of the program alone and not of
data. -/
def Obligations.BoundariesDoNotDependOnData : Prop :=
  ∀ s s' t t' : State, s.prog = s'.prog → s.pc = s'.pc →
    step s = .next t → step s' = .next t' → t.fault = none → t'.fault = none → t.pc = t'.pc

/-- 40_fetch_decode.md R68 (derived there) and 20_memory.md R31: a step depends on no byte of the
program but the four of the window at `pc`, and on the program's length. -/
def Obligations.StepReadsOnlyTheWindow : Prop :=
  ∀ (s : State) (bs : List Byte), bs.length = s.prog.length →
    (∀ k, k < 4 → bs[s.pc + k]? = s.prog[s.pc + k]?) →
    step { s with prog := bs } =
      match step s with
      | .next t => .next { t with prog := bs }
      | .fault r => .fault r
      | .refused r => .refused r

/-! ### Arithmetic -/

/-- 43_shift.md R86 (derived there): the laws of the shift. That it is logical and that the amount is
not reduced, on which the definition, the saturation from 32 and the composition rest, is the spec's
decision D4, log entry 3. -/
def Obligations.ShiftLaws : Prop :=
  ∀ (a : Word) (m n : Nat),
    (shiftRight a n).toNat = a.toNat / 2 ^ n ∧
    shiftRight a 0 = a ∧ shiftRight 0#32 n = 0#32 ∧
    (32 ≤ n → shiftRight a n = 0#32) ∧
    (shiftRight a n).toNat ≤ a.toNat ∧
    (a ≠ 0#32 → 0 < n → (shiftRight a n).toNat < a.toNat) ∧
    shiftRight (shiftRight a m) n = shiftRight a (m + n) ∧
    ∀ i, (shiftRight a n).getLsbD i = if i + n ≤ 31 then a.getLsbD (i + n) else false

/-- 43_shift.md R86, composition, on the machine: two SHR in a row shift by the sum of the two
amounts, taken as a natural number; that no amount and no sum is reduced is the spec's decision D4,
log entry 3. -/
def Obligations.TwoShiftsComposeToTheSum : Prop :=
  ∀ (s : State) (a b : Field), a.toNat < 1024 → b.toNat < 1024 →
    ∃ t u, exec (.shr a) s = .next t ∧ exec (.shr b) t = .next u ∧
      u.acc.toNat =
        s.acc.toNat / 2 ^ ((s.mem.read a.toNat).toNat + (s.mem.read b.toNat).toNat)

/-! ### Invariants -/

/-- 10_state.md R15, R19, R24 and the canonical form of memory (log entry 12): every step keeps
`Safety.Inv`. -/
def Obligations.StepKeepsMachineInvariant : Prop :=
  ∀ s t : State, Safety.Inv s → step s = .next t → Safety.Inv t

/-- `Safety.Inv` holds at reset, with any program. That `acc` is 0 there is the spec's decision D2,
log entry 1. -/
def Obligations.ResetMeetsMachineInvariant : Prop :=
  Safety.Inv State.reset ∧ ∀ bs : List Byte, Safety.Inv (boot bs)

/-! ### Reset, runs and the host -/

/-- 10_state.md R23 and 70_reset_and_hazards.md R115 to R117; `acc` by the spec's decision D2 (log
entry 1), the program by the host (log entry 9). -/
def Obligations.ResetValues : Prop :=
  State.reset.pc = 0 ∧ State.reset.acc = 0#32 ∧ (∀ i, State.reset.mem.read i = 0#32) ∧
    State.reset.fault = none ∧ ∀ bs : List Byte, boot bs = { State.reset with prog := bs }

/-- 40_fetch_decode.md R73 (derived there): with the empty program the reset state is done. R60 and
R73 say that no step exists there; that the model's step answers it with the stop `runDone` is log
entry 10. -/
def Obligations.EmptyRunIsDoneAtOnce : Prop :=
  step (boot []) = .fault .runDone ∧ runToEnd (boot []) = boot [] ∧ (boot []).Done

/-- 70_reset_and_hazards.md R125 and 40_fetch_decode.md R70: a run reaches a done or faulted state
after at most as many steps as bytes are left, and from reset after at most `L`. -/
def Obligations.EveryRunEnds : Prop :=
  (∀ s : State, s.pc ≤ s.len → Safety.Ended (runFor (s.len - s.pc) s)) ∧
  ∀ bs : List Byte, Safety.Ended (runFor bs.length (boot bs))

/-- 70_reset_and_hazards.md R120: the result of a done run is the cells of the range in rising order.
The refusal of other ranges is the spec's decision D11, log entry 16. -/
def Obligations.ResultIsTheCellsOfTheRange : Prop :=
  ∀ (s : State) (start stop : Nat), s.fault = none → s.pc = s.prog.length →
    (start ≤ stop → stop ≤ 1024 → ∃ values, readOut start stop s = .cells values ∧
      values.length = stop - start ∧
      ∀ k, k < stop - start → values[k]? = some (s.mem.read (start + k))) ∧
    (stop < start ∨ 1024 < stop → readOut start stop s = .badRange)

/-- 70_reset_and_hazards.md R126 (derived there): where what is left of the stream is cleanly cut into
instructions with addresses below 1024, the step keeps it so without a fault, or it is a LOAD_MEM
whose accumulator is 1024 or more. -/
def Obligations.SoundStreamFailsOnlyInLoadMem : Prop :=
  ∀ s t : State, s.fault = none → Safety.restSound s = true → step s = .next t →
    (t.fault = none ∧ Safety.restSound t = true) ∨
      (fetch s = .instr .loadMem ∧ 1024 ≤ s.acc.toNat ∧
        t = { s with fault := some ⟨.boundsError, s.pc, s.acc.toNat⟩ })

/-- 10_state.md R20: done, faulted and running are predicates of the state; for `pc <= L`, which every
reachable state has, exactly one of them holds, and a step exists only in a running state. -/
def Obligations.StatusIsExactlyOneOfThree : Prop :=
  ∀ s : State,
    (status s = .done ↔ s.fault = none ∧ s.pc = s.prog.length) ∧
    (∀ r, status s = .faulted r ↔ s.fault = some r) ∧
    (status s = .running ↔ s.fault = none ∧ s.pc < s.prog.length) ∧
    (s.pc ≤ s.prog.length → status s = .done ∨ status s = .running ∨ ∃ r, status s = .faulted r) ∧
    ((∃ t, step s = .next t) → status s = .running)

/-! ### Refinement -/

/-- 40_fetch_decode.md R71: on running states the step is the pseudocode's, written in natural
numbers without any width. The pseudocode holds the spec's decisions D4, D5, D6, D7 and D13 (log
entries 3 to 7). -/
def Obligations.StepRefinesThePseudocode : Prop :=
  ∀ s : State, s.fault = none → s.pc < s.prog.length →
    ∃ t, step s = .next t ∧ t.prog = s.prog ∧
      Reference.view t = Reference.refStep s.prog (Reference.view s)

/-- 10_state.md R15(b): every run has, step for step, the numbers of R71's pseudocode with an unbounded
accumulator and unbounded cells, so that their width, the spec's decision D3 (log entry 2), is not
observable. The reference here is that pseudocode and not the document's own program: it holds the
spec's decisions D4, D5, D6, D7 and D13 (log entries 3 to 7). -/
def Obligations.RunRefinesTheUnboundedReference : Prop :=
  ∀ (k : Nat) (s : State),
    Reference.view (runFor k s) = Reference.refRun s.prog k (Reference.view s)

/-! ### The assembler -/

/-- 30_encoding.md R56: the bytes of `LOAD_CONST v`, the same as of `v mod 2^28`. -/
def Obligations.LoadConstAssemblesTo : Prop :=
  ∀ v : Nat,
    (Line.loadConst v).bytes =
      [BitVec.ofNat 8 (16 * (v % 16) + 0xD), BitVec.ofNat 8 (v / 2 ^ 4),
        BitVec.ofNat 8 (v / 2 ^ 12), BitVec.ofNat 8 (v / 2 ^ 20)] ∧
    (Line.loadConst v).bytes = (Line.loadConst (v % 2 ^ 28)).bytes

/-- 30_encoding.md R58: the bytes of `STORE_MEM a` and `SHR a`, the same as of `a mod 4096`. -/
def Obligations.AddressLinesAssembleTo : Prop :=
  ∀ a : Nat,
    (Line.storeMem a).bytes =
      [BitVec.ofNat 8 (16 * (a % 16) + 0xC), BitVec.ofNat 8 (a / 2 ^ 4), 0x00#8, 0x00#8, 0x00#8] ∧
    (Line.shr a).bytes =
      [BitVec.ofNat 8 (16 * (a % 16) + 0x1), BitVec.ofNat 8 (a / 2 ^ 4), 0x00#8, 0x00#8, 0x00#8] ∧
    (Line.storeMem a).bytes = (Line.storeMem (a % 4096)).bytes ∧
    (Line.shr a).bytes = (Line.shr (a % 4096)).bytes

/-- What the core decodes from an assembled line: 95_test_vectors.md E1 for a constant below `2^28`, E2
and E5 for an address, E3 for LOAD_MEM. That a constant of `2^28` or more is cut modulo `2^28` is
30_encoding.md R56 (conflict C4; log entry 18). -/
def Obligations.AssembledLineDecodesToWhatItMeans : Prop :=
  ∀ (line : Line) (rest : List Byte), decode (line.bytes ++ rest) = .instr line.meant

/-- 40_fetch_decode.md R70 and 30_encoding.md R55: an assembled program is cut into exactly its lines'
instructions, their operands cut as the Encoder cuts them (30_encoding.md R56, R58; log entry 18), and
ends at a boundary. -/
def Obligations.AssembledStreamSweepsToItsLines : Prop :=
  ∀ lines : List Line, sweep (emit lines) = { instrs := lines.map Line.meant, stop := .atEnd }

/-- 30_encoding.md R55: the output is the concatenation of the lines' encodings in input order. -/
def Obligations.AssemblyIsConcatenationOfLines : Prop :=
  ∀ (source : List (List Char)) (bytes : List Byte),
    assemble source = .ok bytes ↔
      ∃ lines : List Line, source.map parseLine = lines.map Except.ok ∧
        bytes = lines.flatMap Line.bytes

/-- 30_encoding.md R59: the first bad line aborts the pass, with its number (counted from 1, log entry
17) and no bytes. -/
def Obligations.FirstBadLineAbortsTheAssembly : Prop :=
  ∀ (source : List (List Char)) (n : Nat) (reason : ParseReason),
    assemble source = .error { line := n, reason := reason } ↔
      ∃ before text after, source = before ++ text :: after ∧ n = before.length + 1 ∧
        parseLine text = .error reason ∧ ∀ l ∈ before, ∃ line, parseLine l = .ok line

/-- 30_encoding.md section 8: the listing of an instruction the assembler can emit is a line of source
that assembles to its encoding (the listing's layout is log entry 20). -/
def Obligations.ListingOfCanonicalInstructionReassembles : Prop :=
  ∀ i : Instr, i.canonical = true →
    ∃ line, parseLine i.listing = .ok line ∧ line.bytes = encode i

/-- 30_encoding.md R55 as narrowed by the spec's decision D12 (log entry 17): exactly the lines of the
grammar are accepted. Blanks are spaces and tabs; they may stand at both ends and must stand between
the mnemonic and its operand, a non-empty string of decimal digits. -/
def Obligations.AcceptedLinesAreExactlyTheGrammar : Prop :=
  ∀ (text : List Char) (line : Line),
    parseLine text = .ok line ↔
      ∃ before after : List Char, before.all isBlank = true ∧ after.all isBlank = true ∧
        match line with
        | .loadMem => text = before ++ mnemonic .loadMem ++ after
        | .loadConst v => ∃ between digits : List Char,
            between ≠ [] ∧ between.all isBlank = true ∧
            digits ≠ [] ∧ digits.all isDecimal = true ∧ decimalValue digits = v ∧
            text = before ++ mnemonic .loadConst ++ between ++ digits ++ after
        | .storeMem a => ∃ between digits : List Char,
            between ≠ [] ∧ between.all isBlank = true ∧
            digits ≠ [] ∧ digits.all isDecimal = true ∧ decimalValue digits = a ∧
            text = before ++ mnemonic .storeMem ++ between ++ digits ++ after
        | .shr a => ∃ between digits : List Char,
            between ≠ [] ∧ between.all isBlank = true ∧
            digits ≠ [] ∧ digits.all isDecimal = true ∧ decimalValue digits = a ∧
            text = before ++ mnemonic .shr ++ between ++ digits ++ after
end

