-- ==== Sys2Proof/Laws/Decode.lean ====
section
/-! SUPPORT. The small lemmas of the decoder. -/

namespace Sys2Proof

@[simp] theorem Opcode.ofNibble_nibble (op : Opcode) : Opcode.ofNibble op.nibble = some op := by
  cases op <;> rfl

/-- The opcode map has one row per nibble, 30_encoding.md R49. -/
theorem Opcode.ofNibble_eq_some (n : Nibble) (op : Opcode) :
    Opcode.ofNibble n = some op ↔ n = op.nibble := by
  cases op <;> revert n <;> decide

@[simp] theorem Opcode.width_loadConst : Opcode.loadConst.width = 4 := rfl
@[simp] theorem Opcode.width_loadMem : Opcode.loadMem.width = 1 := rfl
@[simp] theorem Opcode.width_storeMem : Opcode.storeMem.width = 5 := rfl
@[simp] theorem Opcode.width_shr : Opcode.shr.width = 5 := rfl

@[simp] theorem Instr.width_loadConst (imm : Field) : (Instr.loadConst imm).width = 4 := rfl
@[simp] theorem Instr.width_loadMem : Instr.loadMem.width = 1 := rfl
@[simp] theorem Instr.width_storeMem (addr : Field) : (Instr.storeMem addr).width = 5 := rfl
@[simp] theorem Instr.width_shr (addr : Field) : (Instr.shr addr).width = 5 := rfl

theorem Opcode.width_pos (op : Opcode) : 0 < op.width := by cases op <;> decide

theorem Instr.width_pos (i : Instr) : 0 < i.width := i.opcode.width_pos

/-! ### The window as a number -/

theorem lowNibble_toNat (b : Byte) : (lowNibble b).toNat = b.toNat % 16 := by
  simp [lowNibble]

/-- `le32`, 00_scope.md section 5.1. -/
theorem le32_toNat (b0 b1 b2 b3 : Byte) : (le32 b0 b1 b2 b3).toNat =
    b0.toNat + 2 ^ 8 * b1.toNat + 2 ^ 16 * b2.toNat + 2 ^ 24 * b3.toNat := by
  have h0 := b0.isLt
  have h1 := b1.isLt
  have h2 := b2.isLt
  simp only [le32, BitVec.toNat_append]
  rw [← Nat.shiftLeft_add_eq_or_of_lt h2, ← Nat.shiftLeft_add_eq_or_of_lt h1,
    ← Nat.shiftLeft_add_eq_or_of_lt h0]
  simp only [Nat.shiftLeft_eq]
  omega

theorem operandField_toNat (w : BitVec 32) : (operandField w).toNat = w.toNat / 2 ^ 4 := by
  have := w.isLt
  simp only [operandField, BitVec.extractLsb'_toNat, Nat.shiftRight_eq_div_pow]
  omega

theorem operandWindow_toNat (f : Field) (op : Opcode) :
    (operandWindow f op).toNat = 16 * f.toNat + op.nibble.toNat := by
  have h := op.nibble.isLt
  simp only [operandWindow, BitVec.toNat_append]
  rw [← Nat.shiftLeft_add_eq_or_of_lt h, Nat.shiftLeft_eq]
  omega

theorem byteOf_toNat (w : BitVec 32) (k : Nat) :
    (w.extractLsb' k 8).toNat = w.toNat / 2 ^ k % 256 := by
  simp [Nat.shiftRight_eq_div_pow]

/-- Splitting a window into bytes and joining them again, 20_memory.md R28. -/
theorem le32_windowBytes (w : BitVec 32) :
    le32 (w.extractLsb' 0 8) (w.extractLsb' 8 8) (w.extractLsb' 16 8) (w.extractLsb' 24 8) = w := by
  apply BitVec.eq_of_toNat_eq
  have := w.isLt
  simp only [le32_toNat, byteOf_toNat]
  omega

theorem operandField_operandWindow (f : Field) (op : Opcode) :
    operandField (operandWindow f op) = f := by
  apply BitVec.eq_of_toNat_eq
  have := op.nibble.isLt
  rw [operandField_toNat, operandWindow_toNat]
  omega

theorem lowNibble_operandWindow (f : Field) (op : Opcode) :
    lowNibble ((operandWindow f op).extractLsb' 0 8) = op.nibble := by
  apply BitVec.eq_of_toNat_eq
  have := op.nibble.isLt
  rw [lowNibble_toNat, byteOf_toNat, operandWindow_toNat]
  omega

/-- An instruction was decoded from at least as many bytes as its width, 40_fetch_decode.md R66. -/
theorem decode_instr_width {bs : List Byte} {i : Instr} (h : decode bs = .instr i) :
    i.width ≤ bs.length := by
  unfold decode at h
  split at h
  · cases h
  · split at h
    · cases h
    · unfold decodeFormatK at h; split at h <;> cases h
      simp [Instr.width, Instr.opcode, Opcode.width]
    · cases h; simp [Instr.width, Instr.opcode, Opcode.width]
    · unfold decodeFormatA at h; split at h <;> cases h
      simp [Instr.width, Instr.opcode, Opcode.width]
    · unfold decodeFormatA at h; split at h <;> cases h
      simp [Instr.width, Instr.opcode, Opcode.width]

end Sys2Proof
end

