-- ==== Sys2Proof/Laws/Memory.lean ====
section
/-! SUPPORT. What reading and writing a cell can do, and that every memory operation keeps the
canonical form. -/

namespace Sys2Proof.Machine

@[simp] theorem Memory.read_nil (i : Nat) : Memory.read i [] = Memory.unlisted := rfl

theorem Memory.read_cons (i a : Nat) (v : Word) (m : Memory) :
    Memory.read i ((a, v) :: m) = if a = i then v else Memory.read i m := rfl

theorem Memory.erase_cons_same {i a : Nat} (v : Word) (m : Memory) (h : a = i) :
    Memory.erase i ((a, v) :: m) = Memory.erase i m := by
  simp [Memory.erase, h]

theorem Memory.erase_cons_other {i a : Nat} (v : Word) (m : Memory) (h : a ≠ i) :
    Memory.erase i ((a, v) :: m) = (a, v) :: Memory.erase i m := by
  simp [Memory.erase, h]

/-! ### Read after write -/

theorem Memory.read_erase (i j : Nat) (m : Memory) :
    Memory.read j (Memory.erase i m) = if j = i then Memory.unlisted else Memory.read j m := by
  induction m with
  | nil => simp [Memory.erase]
  | cons c m ih =>
    obtain ⟨a, v⟩ := c
    by_cases hai : a = i
    · rw [Memory.erase_cons_same v m hai, ih, Memory.read_cons]
      by_cases hj : j = i
      · simp [hj]
      · rw [if_neg hj, if_neg hj, if_neg fun h => hj (h.symm.trans hai)]
    · rw [Memory.erase_cons_other v m hai, Memory.read_cons, Memory.read_cons, ih]
      by_cases hja : a = j
      · rw [if_pos hja, if_pos hja, if_neg fun h => hai (hja.trans h)]
      · rw [if_neg hja, if_neg hja]

theorem Memory.read_insert (i j : Nat) (v : Word) (m : Memory)
    (absent : ∀ c ∈ m, c.1 ≠ i) :
    Memory.read j (Memory.insert i v m) = if j = i then v else Memory.read j m := by
  induction m with
  | nil =>
    rw [Memory.insert, Memory.read_cons]
    by_cases hji : j = i
    · rw [if_pos hji, if_pos hji.symm]
    · rw [if_neg hji, if_neg fun h => hji h.symm]
  | cons c m ih =>
    obtain ⟨a, w⟩ := c
    have ha : a ≠ i := absent (a, w) (by simp)
    have ih := ih fun c hc => absent c (by simp [hc])
    simp only [Memory.insert]
    by_cases hji : j = i
    · subst hji
      split <;> simp [Memory.read_cons, ha, ih]
    · have hij : i ≠ j := fun h => hji h.symm
      split <;> simp [Memory.read_cons, hji, hij, ih]

theorem Memory.mem_erase {i : Nat} {m : Memory} {c : Nat × Word} :
    c ∈ Memory.erase i m ↔ c ∈ m ∧ c.1 ≠ i := by
  simp [Memory.erase]

theorem Memory.mem_insert {i : Nat} {v : Word} {m : Memory} {c : Nat × Word}
    (h : c ∈ Memory.insert i v m) : c = (i, v) ∨ c ∈ m := by
  induction m with
  | nil => simpa [Memory.insert] using h
  | cons d m ih =>
    obtain ⟨a, w⟩ := d
    simp only [Memory.insert] at h
    split at h
    · simpa using h
    · rcases List.mem_cons.1 h with h | h
      · simp [h]
      · rcases ih h with h | h <;> simp [h]

/-- Writing a cell: that cell holds the value, every other cell is unchanged, 20_memory.md R34. -/
theorem Memory.read_write (i j : Nat) (v : Word) (m : Memory) :
    Memory.read j (Memory.write i v m) = if j = i then v else Memory.read j m := by
  unfold Memory.write
  split
  · rename_i hv; simp [Memory.read_erase, hv]
  · rw [Memory.read_insert _ _ _ _ fun c hc => (Memory.mem_erase.1 hc).2, Memory.read_erase]
    by_cases h : j = i <;> simp [h]

/-- What a write lists comes from the write or was listed before. -/
theorem Memory.mem_write {i : Nat} {v : Word} {m : Memory} {c : Nat × Word}
    (h : c ∈ Memory.write i v m) : c = (i, v) ∨ c ∈ m := by
  unfold Memory.write at h
  split at h
  · exact .inr (Memory.mem_erase.1 h).1
  · rcases Memory.mem_insert h with h | h
    · exact .inl h
    · exact .inr (Memory.mem_erase.1 h).1

/-! ### The canonical form -/

theorem Memory.wfFrom_cons (lo a : Nat) (v : Word) (m : Memory) :
    Memory.wfFrom lo ((a, v) :: m) = true ↔
      lo ≤ a ∧ a < Config.memCells ∧ v ≠ Memory.unlisted ∧ Memory.wfFrom (a + 1) m = true := by
  simp [Memory.wfFrom, and_assoc]

theorem Memory.wfFrom_mono {lo lo' : Nat} {m : Memory} (hle : lo' ≤ lo)
    (h : Memory.wfFrom lo m = true) : Memory.wfFrom lo' m = true := by
  cases m with
  | nil => rfl
  | cons c m =>
    obtain ⟨a, v⟩ := c
    rw [Memory.wfFrom_cons] at h ⊢
    exact ⟨hle.trans h.1, h.2⟩

theorem Memory.wfFrom_erase {lo : Nat} (i : Nat) {m : Memory} (h : Memory.wfFrom lo m = true) :
    Memory.wfFrom lo (Memory.erase i m) = true := by
  induction m generalizing lo with
  | nil => rfl
  | cons c m ih =>
    obtain ⟨a, v⟩ := c
    rw [Memory.wfFrom_cons] at h
    obtain ⟨hlo, hcell, hv, hm⟩ := h
    have hm := ih hm
    by_cases hai : a = i
    · simpa [Memory.erase, hai] using Memory.wfFrom_mono (by omega) hm
    · simpa [Memory.erase, hai, Memory.wfFrom, hlo, hcell, hv] using hm

theorem Memory.wfFrom_insert {lo i : Nat} {v : Word} {m : Memory} (hlo : lo ≤ i)
    (hi : i < Config.memCells) (hv : v ≠ Memory.unlisted) (absent : ∀ c ∈ m, c.1 ≠ i)
    (h : Memory.wfFrom lo m = true) : Memory.wfFrom lo (Memory.insert i v m) = true := by
  induction m generalizing lo with
  | nil => simp [Memory.insert, Memory.wfFrom, hlo, hi, hv]
  | cons c m ih =>
    obtain ⟨a, w⟩ := c
    have ha : a ≠ i := absent (a, w) (by simp)
    rw [Memory.wfFrom_cons] at h
    obtain ⟨hla, hcell, hw, hm⟩ := h
    simp only [Memory.insert]
    split
    · rename_i hia
      exact (Memory.wfFrom_cons _ _ _ _).2 ⟨hlo, hi, hv,
        (Memory.wfFrom_cons _ _ _ _).2 ⟨hia, hcell, hw, hm⟩⟩
    · exact (Memory.wfFrom_cons _ _ _ _).2 ⟨hla, hcell, hw,
        ih (by omega) (fun c hc => absent c (by simp [hc])) hm⟩

theorem Memory.wf_nil : Memory.wf [] = true := rfl

/-- Every write of a cell that exists keeps the canonical form. -/
theorem Memory.wf_write {i : Nat} (v : Word) {m : Memory} (hi : i < Config.memCells)
    (h : m.wf = true) : (Memory.write i v m).wf = true := by
  unfold Memory.write
  split
  · exact Memory.wfFrom_erase i h
  · rename_i hv
    exact Memory.wfFrom_insert (Nat.zero_le i) hi hv (fun c hc => (Memory.mem_erase.1 hc).2)
      (Memory.wfFrom_erase i h)

end Sys2Proof.Machine
end

