-- ==== Sys2Proof/Laws/State.lean ====
section
/-! SUPPORT. One lemma per field per update of the state, so that no proof unfolds a record update. -/

namespace Sys2Proof.Machine

@[simp] theorem State.setAcc_pc (s : State) (v : Word) : (s.setAcc v).pc = s.pc := rfl
@[simp] theorem State.setAcc_acc (s : State) (v : Word) : (s.setAcc v).acc = v := rfl
@[simp] theorem State.setAcc_mem (s : State) (v : Word) : (s.setAcc v).mem = s.mem := rfl
@[simp] theorem State.setAcc_fault (s : State) (v : Word) : (s.setAcc v).fault = s.fault := rfl
@[simp] theorem State.setAcc_prog (s : State) (v : Word) : (s.setAcc v).prog = s.prog := rfl
@[simp] theorem State.setAcc_len (s : State) (v : Word) : (s.setAcc v).len = s.len := rfl

@[simp] theorem State.setMem_pc (s : State) (m : Memory) : (s.setMem m).pc = s.pc := rfl
@[simp] theorem State.setMem_acc (s : State) (m : Memory) : (s.setMem m).acc = s.acc := rfl
@[simp] theorem State.setMem_mem (s : State) (m : Memory) : (s.setMem m).mem = m := rfl
@[simp] theorem State.setMem_fault (s : State) (m : Memory) : (s.setMem m).fault = s.fault := rfl
@[simp] theorem State.setMem_prog (s : State) (m : Memory) : (s.setMem m).prog = s.prog := rfl
@[simp] theorem State.setMem_len (s : State) (m : Memory) : (s.setMem m).len = s.len := rfl

@[simp] theorem State.advance_pc (s : State) (n : Nat) : (s.advance n).pc = s.pc + n := rfl
@[simp] theorem State.advance_acc (s : State) (n : Nat) : (s.advance n).acc = s.acc := rfl
@[simp] theorem State.advance_mem (s : State) (n : Nat) : (s.advance n).mem = s.mem := rfl
@[simp] theorem State.advance_fault (s : State) (n : Nat) : (s.advance n).fault = s.fault := rfl
@[simp] theorem State.advance_prog (s : State) (n : Nat) : (s.advance n).prog = s.prog := rfl
@[simp] theorem State.advance_len (s : State) (n : Nat) : (s.advance n).len = s.len := rfl

@[simp] theorem State.raise_pc (s : State) (c : FaultCause) (n : Nat) : (s.raise c n).pc = s.pc := rfl
@[simp] theorem State.raise_acc (s : State) (c : FaultCause) (n : Nat) : (s.raise c n).acc = s.acc := rfl
@[simp] theorem State.raise_mem (s : State) (c : FaultCause) (n : Nat) : (s.raise c n).mem = s.mem := rfl
@[simp] theorem State.raise_fault (s : State) (c : FaultCause) (n : Nat) : (s.raise c n).fault = some { cause := c, offset := s.pc, info := n } := rfl
@[simp] theorem State.raise_prog (s : State) (c : FaultCause) (n : Nat) : (s.raise c n).prog = s.prog := rfl
@[simp] theorem State.raise_len (s : State) (c : FaultCause) (n : Nat) : (s.raise c n).len = s.len := rfl

@[simp] theorem State.reset_pc : State.reset.pc = 0 := rfl
@[simp] theorem State.reset_acc : State.reset.acc = Config.accReset := rfl
@[simp] theorem State.reset_mem : State.reset.mem = [] := rfl
@[simp] theorem State.reset_fault : State.reset.fault = none := rfl
@[simp] theorem State.reset_prog : State.reset.prog = [] := rfl

@[simp] theorem boot_pc (bs : List Byte) : (boot bs).pc = 0 := rfl
@[simp] theorem boot_acc (bs : List Byte) : (boot bs).acc = Config.accReset := rfl
@[simp] theorem boot_mem (bs : List Byte) : (boot bs).mem = [] := rfl
@[simp] theorem boot_fault (bs : List Byte) : (boot bs).fault = none := rfl
@[simp] theorem boot_prog (bs : List Byte) : (boot bs).prog = bs := rfl
@[simp] theorem boot_len (bs : List Byte) : (boot bs).len = bs.length := rfl

@[simp] theorem State.withFetchWord_pc (s : State) (n w : Nat) :
    (s.withFetchWord n w).pc = s.pc := rfl
@[simp] theorem State.withFetchWord_acc (s : State) (n w : Nat) :
    (s.withFetchWord n w).acc = s.acc := rfl
@[simp] theorem State.withFetchWord_mem (s : State) (n w : Nat) :
    (s.withFetchWord n w).mem = s.mem := rfl
@[simp] theorem State.withFetchWord_fault (s : State) (n w : Nat) :
    (s.withFetchWord n w).fault = none := rfl
@[simp] theorem State.withFetchWord_prog (s : State) (n w : Nat) :
    (s.withFetchWord n w).prog = overwrite s.prog s.pc (tableBytes n w) := rfl

end Sys2Proof.Machine
end

