-- ==== Sys2Proof/Laws/Ops.lean ====
section
/-! SUPPORT. What each shared operation can do, said once. -/

namespace Sys2Proof.Machine

/-- A data read: in bounds it gives the cell, out of bounds the index, 20_memory.md R33. -/
theorem memRead_cases (addr : Nat) (s : State) :
    (addr < Config.memCells ∧ memRead addr s = .ok (s.mem.read addr)) ∨
      (Config.memCells ≤ addr ∧ memRead addr s = .error addr) := by
  unfold memRead
  split
  · exact .inl ⟨‹_›, rfl⟩
  · exact .inr ⟨by omega, rfl⟩

/-- A data write: in bounds it changes the memory alone, out of bounds it gives the index,
20_memory.md R34. -/
theorem memWrite_cases (addr : Nat) (v : Word) (s : State) :
    (addr < Config.memCells ∧ memWrite addr v s = .ok (s.setMem (s.mem.write addr v))) ∨
      (Config.memCells ≤ addr ∧ memWrite addr v s = .error addr) := by
  unfold memWrite
  split
  · exact .inl ⟨‹_›, rfl⟩
  · exact .inr ⟨by omega, rfl⟩

/-- The data write keeps the canonical form of the memory, which reset's memory has. -/
theorem memWrite_wf {addr : Nat} {v : Word} {s t : State} (h : s.mem.wf = true)
    (e : memWrite addr v s = .ok t) : t.mem.wf = true := by
  rcases memWrite_cases addr v s with ⟨hlt, e'⟩ | ⟨_, e'⟩ <;> rw [e'] at e <;> cases e
  exact Memory.wf_write v hlt h

theorem reset_mem_wf : State.reset.mem.wf = true := rfl

@[simp] theorem finish_ok (len : Nat) (s t : State) : finish len s (.ok t) = .next (t.advance len) := rfl

@[simp] theorem finish_error (len index : Nat) (s : State) :
    finish len s (.error index) = .next (s.raise .boundsError index) := rfl

/-- LOAD_MEM either completes or raises `BoundsError`. -/
theorem execLoadMem_cases (s : State) :
    (s.acc.toNat < Config.memCells ∧
        execLoadMem s = .next ((s.setAcc (s.mem.read s.acc.toNat)).advance 1)) ∨
      (Config.memCells ≤ s.acc.toNat ∧ execLoadMem s = .next (s.raise .boundsError s.acc.toNat)) := by
  rcases memRead_cases (indirectIndex s) s with ⟨h, e⟩ | ⟨h, e⟩
  · exact .inl ⟨h, by rw [execLoadMem, e]; rfl⟩
  · exact .inr ⟨h, by rw [execLoadMem, e]; rfl⟩

/-- STORE_MEM either completes or raises `BoundsError`. -/
theorem execStoreMem_cases (addr : Field) (s : State) :
    (addr.toNat < Config.memCells ∧
        execStoreMem addr s = .next ((s.setMem (s.mem.write addr.toNat s.acc)).advance 5)) ∨
      (Config.memCells ≤ addr.toNat ∧
        execStoreMem addr s = .next (s.raise .boundsError addr.toNat)) := by
  rcases memWrite_cases (absoluteIndex addr) s.acc s with ⟨h, e⟩ | ⟨h, e⟩
  · exact .inl ⟨h, by rw [execStoreMem, e]; rfl⟩
  · exact .inr ⟨h, by rw [execStoreMem, e]; rfl⟩

/-- SHR either completes or raises `BoundsError`. -/
theorem execShr_cases (addr : Field) (s : State) :
    (addr.toNat < Config.memCells ∧
        execShr addr s =
          .next ((s.setAcc (shiftRight s.acc (s.mem.read addr.toNat).toNat)).advance 5)) ∨
      (Config.memCells ≤ addr.toNat ∧ execShr addr s = .next (s.raise .boundsError addr.toNat)) := by
  rcases memRead_cases (absoluteIndex addr) s with ⟨h, e⟩ | ⟨h, e⟩
  · exact .inl ⟨h, by rw [execShr, e]; rfl⟩
  · exact .inr ⟨h, by rw [execShr, e]; rfl⟩

/-- A step that answers a next state ran an instruction or recorded a fault of the fetch. -/
theorem step_next_cases {s t : State} (h : step s = .next t) :
    s.fault = none ∧
      ((∃ i, fetch s = .instr i ∧ exec i s = .next t) ∨
        (∃ nibble, fetch s = .unknownOpcode nibble ∧ t = s.raise .unknownOpcode nibble.toNat) ∨
        (∃ len, fetch s = .truncated len ∧ t = s.raise .truncatedInstruction len)) := by
  unfold step at h
  split at h
  · cases h
  · rename_i hf
    refine ⟨hf, ?_⟩
    split at h
    · exact .inl ⟨_, ‹_›, h⟩
    · cases h; exact .inr (.inl ⟨_, ‹_›, rfl⟩)
    · cases h; exact .inr (.inr ⟨_, ‹_›, rfl⟩)
    · cases h

end Sys2Proof.Machine
end

