-- ==== Sys2Proof/Laws/PerInstr.lean ====
section
/-! SUPPORT. Families of facts with one lemma per constructor of `Instr`. -/

namespace Sys2Proof.Laws

/-- An encoding has the width of its opcode and shows the opcode in the low nibble of its first
byte, 30_encoding.md R45. -/
def EncodeShape.Statement (i : Instr) : Prop :=
  (encode i).length = i.width ∧ ((encode i).head?.map lowNibble) = some i.opcode.nibble

theorem EncodeShape.loadConst (imm : Field) : EncodeShape.Statement (.loadConst imm) :=
  ⟨rfl, congrArg some (lowNibble_operandWindow imm .loadConst)⟩

theorem EncodeShape.loadMem : EncodeShape.Statement .loadMem := ⟨rfl, rfl⟩

theorem EncodeShape.storeMem (addr : Field) : EncodeShape.Statement (.storeMem addr) :=
  ⟨rfl, congrArg some (lowNibble_operandWindow addr .storeMem)⟩

theorem EncodeShape.shr (addr : Field) : EncodeShape.Statement (.shr addr) :=
  ⟨rfl, congrArg some (lowNibble_operandWindow addr .shr)⟩

end Sys2Proof.Laws
end

