-- ==== Sys2Proof/Tests/Slice0.lean ====
section
/-! SUPPORT. Small tests, each on one step or one function, with expected results taken from
95_test_vectors.md; and, for every statement with hypotheses, a concrete case that meets them. -/

namespace Sys2Proof.Tests

open Sys2Proof.Machine Sys2Proof.Assembler

/-- A running state. -/
def st (pc : Nat) (acc : Word) (mem : Memory) (prog : List Byte) : State :=
  { pc := pc, acc := acc, mem := mem, fault := none, prog := prog }

/-- A state with a fault record. -/
def stf (pc : Nat) (acc : Word) (mem : Memory) (prog : List Byte) (r : FaultRecord) : State :=
  { pc := pc, acc := acc, mem := mem, fault := some r, prog := prog }

def next? : Host.Outcome State Fault Refusal → Option State
  | .next s => some s
  | .fault _ => none
  | .refused _ => none

def stop? : Host.Outcome State Fault Refusal → Option Fault
  | .next _ => none
  | .fault f => some f
  | .refused _ => none

/-! ### Decoding, words of 95_test_vectors.md section 2.1 -/

theorem test_decode_loadConst : decode [0x0D#8, 0xEF#8, 0xCD#8, 0xAB#8] = .instr (.loadConst 180150000#28) := by
  decide
theorem test_decode_loadMem : decode [0xA5#8] = .instr .loadMem := by decide
theorem test_decode_storeMem :
    decode [0x3C#8, 0x00#8, 0x01#8, 0x00#8, 0xFF#8] = .instr (.storeMem 4099#28) := by decide
theorem test_decode_shr : decode [0x51#8, 0x2A#8, 0x00#8, 0x00#8, 0x00#8] = .instr (.shr 677#28) := by
  decide
theorem test_decode_illegal : decode [0xF2#8, 0x00#8] = .unknownOpcode 0x2#4 := by decide
theorem test_decode_truncated_const : decode [0x7D#8, 0x00#8, 0x00#8] = .truncated 4 := by decide
theorem test_decode_truncated_store : decode [0x0C#8, 0x40#8, 0x00#8, 0x00#8] = .truncated 5 := by decide
theorem test_decode_empty : decode [] = .endOfStream := by decide

theorem test_encode_loadConst : encode (.loadConst 0x1234567#28) = [0x7D#8, 0x56#8, 0x34#8, 0x12#8] := by
  decide
theorem test_encode_loadMem : encode .loadMem = [0x05#8] := by decide
theorem test_encode_storeMem :
    encode (.storeMem 1023#28) = [0xFC#8, 0x3F#8, 0x00#8, 0x00#8, 0x00#8] := by decide
theorem test_encode_shr : encode (.shr 677#28) = [0x51#8, 0x2A#8, 0x00#8, 0x00#8, 0x00#8] := by decide

theorem test_table_words :
    decodeTableWord 32 0x1234567D = some (.loadConst 0x1234567#28) ∧
      decodeTableWord 8 0xF5 = some .loadMem ∧
      decodeTableWord 40 0xAA0000123C = some (.storeMem 0x123#28) ∧
      decodeTableWord 40 0x0000002A51 = some (.shr 677#28) ∧ decodeTableWord 8 0x02 = none := by decide

/-- The first step after reset on a table word, for each row. -/
theorem test_first_step_runs_the_table_word :
    ((next? (step (State.reset.withFetchWord 32 0x7D))).map fun t => (t.pc, t.acc)) = some (4, 7#32) ∧
      ((next? (step (State.reset.withFetchWord 8 0x05))).map fun t => (t.pc, t.fault)) = some (1, none) ∧
      ((next? (step (State.reset.withFetchWord 40 0x3C))).map fun t => (t.pc, t.fault)) = some (5, none) ∧
      ((next? (step (State.reset.withFetchWord 40 0x31))).map fun t => (t.pc, t.fault)) = some (5, none) := by
  decide

/-- In the middle of a program the word replaces what stood at the program counter. -/
theorem test_withFetchWord_in_place :
    ((st 1 0#32 [] [0x05#8, 0x02#8, 0x03#8]).withFetchWord 8 0x15).prog =
      [0x05#8, 0x15#8, 0x00#8, 0x00#8, 0x00#8, 0x00#8] := by decide

/-! ### WellFormed: a term that each check refuses -/

theorem test_canonical_refuses_storeMem :
    (Instr.storeMem 4096#28).canonical = false ∧ (Instr.storeMem 4095#28).canonical = true := by decide
theorem test_canonical_refuses_shr :
    (Instr.shr 4096#28).canonical = false ∧ (Instr.shr 4095#28).canonical = true := by decide
theorem test_inBounds_refuses_storeMem :
    (Instr.storeMem 1024#28).inBounds = false ∧ (Instr.storeMem 1023#28).inBounds = true := by decide
theorem test_inBounds_refuses_shr :
    (Instr.shr 1024#28).inBounds = false ∧ (Instr.shr 1023#28).inBounds = true := by decide
theorem test_checks_accept_the_others :
    (Instr.loadConst 0xFFFFFFF#28).canonical = true ∧ (Instr.loadConst 0xFFFFFFF#28).inBounds = true ∧
      Instr.loadMem.canonical = true ∧ Instr.loadMem.inBounds = true := by decide

/-! ### One step of each instruction, 95_test_vectors.md sections 2.2 to 2.6 -/

theorem test_loadConst_overwrites_zero_extended :
    next? (step (st 0 5#32 [] [0xFD#8, 0xFF#8, 0xFF#8, 0xFF#8])) =
      some (st 4 0x0FFFFFFF#32 [] [0xFD#8, 0xFF#8, 0xFF#8, 0xFF#8]) := by decide
theorem test_loadConst_truncated :
    next? (step (st 1 0#32 [] [0x05#8, 0x0D#8])) =
      some (stf 1 0#32 [] [0x05#8, 0x0D#8] ⟨.truncatedInstruction, 1, 4⟩) := by decide

theorem test_loadMem_last_cell :
    next? (step (st 0 1023#32 [(1023, 9#32)] [0xF5#8])) = some (st 1 9#32 [(1023, 9#32)] [0xF5#8]) := by
  decide
theorem test_loadMem_bounds :
    next? (step (st 0 1024#32 [] [0x05#8])) = some (stf 0 1024#32 [] [0x05#8] ⟨.boundsError, 0, 1024⟩) := by
  decide

theorem test_storeMem_between_cells :
    next? (step (st 0 7#32 [(1, 1#32), (5, 5#32)] [0x3C#8, 0x00#8, 0x00#8, 0x00#8, 0xFF#8])) =
      some (st 5 7#32 [(1, 1#32), (3, 7#32), (5, 5#32)] [0x3C#8, 0x00#8, 0x00#8, 0x00#8, 0xFF#8]) := by
  decide
theorem test_storeMem_address_not_masked :
    next? (step (st 0 7#32 [] [0x3C#8, 0x00#8, 0x01#8, 0x00#8, 0x00#8])) =
      some (stf 0 7#32 [] [0x3C#8, 0x00#8, 0x01#8, 0x00#8, 0x00#8] ⟨.boundsError, 0, 4099⟩) := by decide

theorem test_shr_by_four :
    next? (step (st 0 180150000#32 [(3, 4#32)] [0x31#8, 0x00#8, 0x00#8, 0x00#8, 0x00#8])) =
      some (st 5 11259375#32 [(3, 4#32)] [0x31#8, 0x00#8, 0x00#8, 0x00#8, 0x00#8]) := by decide
theorem test_shr_amount_not_masked :
    ((next? (step (st 0 268435455#32 [(3, 32#32)] [0x31#8, 0x00#8, 0x00#8, 0x00#8, 0x00#8]))).map
      fun t => t.acc) = some 0#32 := by decide

theorem test_truncation_outranks_bounds :
    next? (step (st 0 0#32 [] [0x0C#8, 0x40#8, 0x00#8, 0x00#8])) =
      some (stf 0 0#32 [] [0x0C#8, 0x40#8, 0x00#8, 0x00#8] ⟨.truncatedInstruction, 0, 5⟩) := by decide
theorem test_illegal_last_byte :
    next? (step (st 1 7#32 [] [0x05#8, 0x0E#8])) =
      some (stf 1 7#32 [] [0x05#8, 0x0E#8] ⟨.unknownOpcode, 1, 0xE⟩) := by decide
theorem test_no_step_when_done : stop? (step (st 1 0#32 [] [0x05#8])) = some .runDone := by decide
theorem test_no_step_when_faulted :
    stop? (step (stf 0 0#32 [] [0x02#8] ⟨.unknownOpcode, 0, 2⟩)) =
      some (.runFaulted ⟨.unknownOpcode, 0, 2⟩) := by decide

/-! ### Memory, the host and the assembler -/

/-- Writing what an unlisted cell holds takes the entry out. -/
theorem test_write_zero_unlists :
    Memory.write 3 0#32 [(1, 1#32), (3, 7#32), (5, 5#32)] = [(1, 1#32), (5, 5#32)] := by decide
theorem test_wf_refuses_each_defect :
    Memory.wf [(2, 1#32), (1, 1#32)] = false ∧ Memory.wf [(1, 1#32), (1, 2#32)] = false ∧
      Memory.wf [(1, 0#32)] = false ∧ Memory.wf [(1024, 1#32)] = false ∧
      Memory.wf [(0, 1#32), (1023, 1#32)] = true := by decide

/-- The result of P1 for the range 3:6, 95_test_vectors.md section 3. -/
theorem test_readOut_P1 :
    readOut 3 6 (st 1 0#32 [(3, 7#32)] [0x05#8]) = .cells [7#32, 0#32, 0#32] := by decide
theorem test_readOut_refuses :
    readOut 0 1025 (st 0 0#32 [] []) = .badRange ∧ readOut 2 1 (st 0 0#32 [] []) = .badRange ∧
      readOut 0 1 (st 0 0#32 [] [0x05#8]) = .noResult := by decide

/-- The state P2 ends in, 95_test_vectors.md section 3. -/
theorem test_diagnose_P2 :
    diagnose (stf 9 1024#32 [(0, 1024#32)] [] ⟨.boundsError, 9, 1024⟩) =
        some ⟨⟨.boundsError, 9, 1024⟩, 9, 1024#32, [(0, 1024#32)]⟩ ∧
      diagnose (st 9 1024#32 [] []) = none := by decide

theorem test_assemble_bytes :
    (Line.loadConst 268435461).bytes = [0x5D#8, 0x00#8, 0x00#8, 0x00#8] ∧
      (Line.storeMem 2748).bytes = [0xCC#8, 0xAB#8, 0x00#8, 0x00#8, 0x00#8] ∧
      (Line.shr 5000).bytes = [0x81#8, 0x38#8, 0x00#8, 0x00#8, 0x00#8] := by decide
theorem test_assemble_text :
    (parseLine [' ', 'S', 'H', 'R', '\t', '1', '6']).toOption = some (Line.shr 16) := by decide
theorem test_assemble_refuses :
    parseLine [' '] = .error .blankLine ∧ parseLine ['s', 'h', 'r', ' ', '1'] = .error .unknownMnemonic ∧
      parseLine ['S', 'H', 'R'] = .error .missingOperand ∧
      parseLine ['S', 'H', 'R', ' ', '1', ' ', '2'] = .error .extraOperand ∧
      parseLine ['S', 'H', 'R', ' ', '-', '1'] = .error .nonIntegerOperand := by decide
theorem test_sweep_loses_synchronisation :
    sweep [0x7D#8, 0x00#8, 0x00#8, 0x3C#8, 0x00#8] =
      { instrs := [.loadConst 62914567#28], stop := .unknownOpcode 0x0#4 } := by decide

/-! ### Witnesses: a case that meets the hypotheses of each statement, at the edges of its clauses -/

def full (b0 : Byte) : List Byte := [b0, 0xFF#8, 0x3F#8, 0x00#8, 0x00#8]

/-- LowNibbleGivesLength, ImmediateIsWindowShiftedByFour, AddressIsWindowShiftedByFour: a first byte
for each clause, with frames exactly long enough. -/
theorem witness_nibble_clauses :
    (0x7D#8).toNat % 16 = 0xD ∧ (0xF5#8).toNat % 16 = 0x5 ∧ (0x3C#8).toNat % 16 = 0xC ∧
      (0x31#8).toNat % 16 = 0x1 ∧ (0x02#8).toNat % 16 ∉ [0xD, 0x5, 0xC, 0x1] ∧
      4 ≤ [0x7D#8, 0#8, 0#8, 0#8].length ∧ 5 ≤ [0x3C#8, 0#8, 0#8, 0#8, 0#8].length ∧
      decode [0x7D#8, 0#8, 0#8, 0#8] = .instr (.loadConst 7#28) ∧
      decode [0x3C#8, 0#8, 0#8, 0#8, 0#8] = .instr (.storeMem 3#28) ∧
      decode [0x31#8, 0#8, 0#8, 0#8, 0#8] = .instr (.shr 3#28) := by decide

/-- NonzeroHighAddressBytesAlwaysFault, for both instructions and both bytes. -/
theorem witness_high_address_bytes :
    (st 0 7#32 [] [0x0C#8, 0#8, 1#8, 0#8, 0#8]).fault = none ∧
      (st 0 7#32 [] [0x0C#8, 0#8, 1#8, 0#8, 0#8]).remaining = [0x0C#8, 0#8, 1#8, 0#8, 0#8] ∧
      (0x0C#8).toNat % 16 = 0xC ∧ (1#8 : Byte) ≠ 0x00#8 ∧
      (st 0 7#32 [] [0x01#8, 0#8, 0#8, 1#8, 0#8]).remaining = [0x01#8, 0#8, 0#8, 1#8, 0#8] ∧
      (0x01#8).toNat % 16 = 0x1 := by decide

/-- MemWriteChangesOneCell and the completion statements of LOAD_MEM, STORE_MEM and SHR: the first
and last cell that exist and the first that does not. -/
theorem witness_cell_bounds :
    (0 : Nat) < 1024 ∧ (1023 : Nat) < 1024 ∧ 1024 ≤ (1024 : Nat) ∧
      (st 0 1023#32 [] []).acc.toNat < 1024 ∧ (1023#28 : Field).toNat < 1024 ∧
      (0#28 : Field).toNat < 1024 := by decide

/-- CanonicalMemoriesWithEqualCellsAreEqual: a memory written in two orders. -/
theorem witness_canonical_memories :
    (Memory.write 3 7#32 (Memory.write 5 1#32 [])).wf = true ∧
      (Memory.write 5 1#32 (Memory.write 3 7#32 [])).wf = true ∧
      ∀ i, Memory.read i (Memory.write 3 7#32 (Memory.write 5 1#32 [])) =
        Memory.read i (Memory.write 5 1#32 (Memory.write 3 7#32 [])) :=
  ⟨by decide, by decide, fun _ => rfl⟩

/-- LoadAndShiftSeeTheStoreBefore, with the accumulator naming the cell stored to. -/
theorem witness_store_then_load :
    (3#28 : Field).toNat < 1024 ∧ (st 0 3#32 [] []).acc.toNat = (3#28 : Field).toNat := by decide

/-- OnlyStoreMemWritesMemory: an instruction whose next state has another memory, and one whose next
state has another accumulator. -/
theorem witness_exec_changes :
    ((next? (exec (.storeMem 3#28) (st 0 7#32 [] []))).map fun t => t.mem.read 3) = some 7#32 ∧
      (st 0 7#32 [] []).mem.read 3 = 0#32 ∧
      ((next? (exec (.loadConst 1#28) (st 0 7#32 [] []))).map fun t => t.acc) = some 1#32 := by decide

/-- StepRunsTheDecodedInstruction, at an offset that is no multiple of four. -/
theorem witness_decoded_instruction :
    (st 1 0#32 [] (0x05#8 :: full 0x31#8)).fault = none ∧
      decode ((st 1 0#32 [] (0x05#8 :: full 0x31#8)).prog.drop 1) = .instr (.shr 0x3FFF3#28) := by decide

/-- LoadConstStep, StoreMemStep, ShrStep and OverrunRaisesTruncatedInstruction: a frame one byte short
of the stream's end. -/
theorem witness_overrun :
    (st 1 0#32 [] [0x05#8, 0x7D#8, 0#8, 0#8]).remaining = 0x7D#8 :: [0#8, 0#8] ∧
      (st 1 0#32 [] [0x05#8, 0x7D#8, 0#8, 0#8]).pc + 4 > (st 1 0#32 [] [0x05#8, 0x7D#8, 0#8, 0#8]).len ∧
      (st 0 0#32 [] [0x3C#8, 0#8, 0#8, 0#8]).remaining = 0x3C#8 :: [0#8, 0#8, 0#8] ∧
      (st 0 0#32 [] [0x3C#8, 0#8, 0#8, 0#8]).pc + 5 > (st 0 0#32 [] [0x3C#8, 0#8, 0#8, 0#8]).len ∧
      (st 0 0#32 [] [0x31#8, 0#8, 0#8, 0#8]).remaining = 0x31#8 :: [0#8, 0#8, 0#8] ∧
      (st 0 0#32 [] [0x31#8, 0#8, 0#8, 0#8]).pc + 5 > (st 0 0#32 [] [0x31#8, 0#8, 0#8, 0#8]).len ∧
      (st 0 0#32 [] [0x31#8, 0#8, 0#8, 0#8]).fault = none := by decide

/-- LoadConstStep, StoreMemStep and ShrStep: a whole frame, the address on both sides of the bound,
and for SHR an amount of 32. -/
theorem witness_whole_frames :
    (st 0 0#32 [] [0x7D#8, 0#8, 0#8, 0#8]).remaining = 0x7D#8 :: 0#8 :: 0#8 :: 0#8 :: [] ∧
      (st 0 0#32 [] [0xFC#8, 0x3F#8, 0#8, 0#8, 0#8]).remaining = [0xFC#8, 0x3F#8, 0#8, 0#8, 0#8] ∧
      ((0xFC#8).toNat + 2 ^ 8 * (0x3F#8).toNat) / 2 ^ 4 = 1023 ∧
      ((0x0C#8).toNat + 2 ^ 8 * (0x40#8).toNat) / 2 ^ 4 = 1024 ∧
      ((0xF1#8).toNat + 2 ^ 8 * (0x3F#8).toNat) / 2 ^ 4 = 1023 ∧
      ((0x01#8).toNat + 2 ^ 8 * (0x40#8).toNat) / 2 ^ 4 = 1024 ∧
      32 ≤ ((st 0 0#32 [(1023, 32#32)] []).mem.read 1023).toNat := by decide

/-- LoadMemStep, on both sides of the bound. -/
theorem witness_loadMem_step :
    (st 0 1023#32 [] [0x05#8]).remaining = 0x05#8 :: [] ∧ (st 0 1023#32 [] [0x05#8]).acc.toNat < 1024 ∧
      (st 0 1024#32 [] [0xF5#8]).remaining = 0xF5#8 :: [] ∧ 1024 ≤ (st 0 1024#32 [] [0xF5#8]).acc.toNat ∧
      (st 0 1024#32 [] [0xF5#8]).fault = none := by decide

/-- IllegalNibbleRaisesUnknownOpcode: the twelve nibbles. -/
theorem witness_illegal_nibbles :
    (st 0 7#32 [] [0xF2#8]).fault = none ∧ (st 0 7#32 [] [0xF2#8]).remaining = 0xF2#8 :: [] ∧
      (0xF2#8).toNat % 16 ∈ [0x0, 0x2, 0x3, 0x4, 0x6, 0x7, 0x8, 0x9, 0xA, 0xB, 0xE, 0xF] ∧
      (0x00#8).toNat % 16 ∈ [0x0, 0x2, 0x3, 0x4, 0x6, 0x7, 0x8, 0x9, 0xA, 0xB, 0xE, 0xF] ∧
      (0xFF#8).toNat % 16 ∈ [0x0, 0x2, 0x3, 0x4, 0x6, 0x7, 0x8, 0x9, 0xA, 0xB, 0xE, 0xF] := by decide

/-- BoundsErrorExactlyWhenIndexOutOfRange: fetched instructions on both sides of the bound. -/
theorem witness_bounds_error :
    fetch (st 0 1024#32 [] [0x05#8]) = .instr .loadMem ∧
      fetch (st 0 0#32 [] [0x0C#8, 0x40#8, 0#8, 0#8, 0#8]) = .instr (.storeMem 1024#28) ∧
      fetch (st 0 0#32 [] [0x01#8, 0x40#8, 0#8, 0#8, 0#8]) = .instr (.shr 1024#28) ∧
      (next? (step (st 0 1024#32 [] [0x05#8]))).map (fun t => t.fault.isSome) = some true ∧
      fetch (st 0 0#32 [] [0x0D#8, 0x40#8, 0#8, 0#8]) = .instr (.loadConst 1024#28) := by decide

/-- StepExistsExactlyWhenRunning, StatusIsExactlyOneOfThree, ResultIsTheCellsOfTheRange,
FaultRecordIsSticky: a running, a done and a faulted state. -/
theorem witness_status :
    (st 0 0#32 [] [0x05#8]).Running ∧ (st 1 0#32 [] [0x05#8]).Done ∧
      (stf 0 0#32 [] [0x02#8] ⟨.unknownOpcode, 0, 2⟩).Faulted ∧
      (stf 0 0#32 [] [0x02#8] ⟨.unknownOpcode, 0, 2⟩).fault = some ⟨.unknownOpcode, 0, 2⟩ ∧
      status (st 0 0#32 [] [0x05#8]) = .running ∧ status (st 1 0#32 [] [0x05#8]) = .done := by decide

/-- StepAdvancesByWidthUnlessItFaults, FaultingStepWritesOnlyTheRecord, StoresAreNeverSeenByFetch:
a step of each kind. -/
theorem witness_steps :
    (next? (step (st 0 7#32 [] [0x3C#8, 0#8, 0#8, 0#8, 0#8]))).map (fun t => t.fault) = some none ∧
      (next? (step (st 0 7#32 [] [0x00#8]))).map (fun t => t.fault.isSome) = some true := by decide

/-- BoundariesDoNotDependOnData: two states of one program that differ in their data. -/
theorem witness_boundaries :
    (next? (step (st 0 7#32 [(3, 9#32)] [0x31#8, 0#8, 0#8, 0#8, 0#8]))).map (fun t => (t.pc, t.fault)) =
        some (5, none) ∧
      (next? (step (st 0 1#32 [] [0x31#8, 0#8, 0#8, 0#8, 0#8]))).map (fun t => (t.pc, t.fault)) =
        some (5, none) := by decide

/-- StepReadsOnlyTheWindow: two programs that differ in the fifth byte alone. -/
theorem witness_window :
    [0x31#8, 0#8, 0#8, 0#8, 0xFF#8].length = [0x31#8, 0#8, 0#8, 0#8, 0x00#8].length ∧
      ∀ k, k < 4 → ([0x31#8, 0#8, 0#8, 0#8, 0xFF#8] : List Byte)[0 + k]? =
        ([0x31#8, 0#8, 0#8, 0#8, 0x00#8] : List Byte)[0 + k]? := by decide

/-- ShiftLaws: the clauses with hypotheses, at the width and at one. -/
theorem witness_shift : 32 ≤ (32 : Nat) ∧ (1#32 : Word) ≠ 0#32 ∧ 0 < (1 : Nat) := by decide

/-- TwoShiftsComposeToTheSum. -/
theorem witness_two_shifts : (3#28 : Field).toNat < 1024 ∧ (1023#28 : Field).toNat < 1024 := by decide

/-- StepKeepsMachineInvariant: a state with every part of the invariant in play and a step from it;
and a faulted one. -/
theorem witness_invariant :
    Safety.Inv (st 0 7#32 [(3, 268435455#32)] [0x3C#8, 0#8, 0#8, 0#8, 0#8]) ∧
      (next? (step (st 0 7#32 [(3, 268435455#32)] [0x3C#8, 0#8, 0#8, 0#8, 0#8]))).isSome = true ∧
      Safety.Inv (stf 0 1024#32 [] [0x05#8] ⟨.boundsError, 0, 1024⟩) ∧
      ¬Safety.Inv (stf 0 1#32 [] [0x05#8] ⟨.boundsError, 0, 1024⟩) := by decide

/-- EveryRunEnds, at the boundary and before it. -/
theorem witness_run :
    (st 1 0#32 [] [0x05#8]).pc ≤ (st 1 0#32 [] [0x05#8]).len ∧
      (st 0 0#32 [] [0x05#8]).pc ≤ (st 0 0#32 [] [0x05#8]).len := by decide

/-- ResultIsTheCellsOfTheRange: the whole memory, the empty range, and ranges just outside. -/
theorem witness_ranges :
    (st 1 0#32 [] [0x05#8]).fault = none ∧ (st 1 0#32 [] [0x05#8]).pc = [0x05#8].length ∧
      ((0 : Nat) ≤ 1024 ∧ (1024 : Nat) ≤ 1024) ∧ ((1024 : Nat) ≤ 1024) ∧
      ((1 : Nat) < 2 ∨ 1024 < (1 : Nat)) ∧ 1024 < (1025 : Nat) := by decide

/-- SoundStreamFailsOnlyInLoadMem: a sound stream whose step completes, and one whose LOAD_MEM faults. -/
theorem witness_sound_stream :
    Safety.restSound (st 0 7#32 [] [0x3C#8, 0#8, 0#8, 0#8, 0#8, 0x05#8]) = true ∧
      (next? (step (st 0 7#32 [] [0x3C#8, 0#8, 0#8, 0#8, 0#8, 0x05#8]))).map (fun t => t.fault) = some none ∧
      Safety.restSound (st 0 1024#32 [] [0x05#8]) = true ∧
      (next? (step (st 0 1024#32 [] [0x05#8]))).map (fun t => t.fault.isSome) = some true := by decide

/-- StepRefinesThePseudocode. -/
theorem witness_refinement :
    (st 0 7#32 [] [0x05#8]).fault = none ∧ (st 0 7#32 [] [0x05#8]).pc < [0x05#8].length := by decide

/-- AssemblyIsConcatenationOfLines, FirstBadLineAbortsTheAssembly, AcceptedLinesAreExactlyTheGrammar:
a good source and one whose second line is bad. -/
theorem witness_sources :
    assemble [['S', 'H', 'R', ' ', '3'], ['L', 'O', 'A', 'D', '_', 'M', 'E', 'M']] =
        .ok [0x31#8, 0#8, 0#8, 0#8, 0#8, 0x05#8] ∧
      assemble [['S', 'H', 'R', ' ', '3'], ['S', 'H', 'R'], []] = .error ⟨2, .missingOperand⟩ := by decide

/-- ListingOfCanonicalInstructionReassembles. -/
theorem witness_listing :
    (Instr.storeMem 4095#28).canonical = true ∧
      (Instr.shr 15#28).listing = ['S', 'H', 'R', ' ', '1', '5'] := by decide

end Sys2Proof.Tests
end

section
/-! The derived status of 10_state.md R20: when each answer of `status` is given, and why a step
needs a running state. -/

namespace Sys2Proof.Machine

/-! ### The answers of `status` -/

/-- The record alone decides the faulted status, wherever `pc` stands. -/
theorem status_of_fault {s : State} {r : FaultRecord} (h : s.fault = some r) :
    status s = .faulted r := by
  simp [status, h]

theorem status_of_running {s : State} (h : s.Running) : status s = .running := by
  simp [status, h]

theorem status_of_done {s : State} (h : s.Done) : status s = .done := by
  simp [status, h]

theorem status_of_pc_past_end {s : State} (hf : s.fault = none) (hpc : s.len < s.pc) :
    status s = .pastEnd := by
  simp [status, hf, hpc.not_gt, hpc.ne']

/-- Every state is in one of four cases, and the case fixes the status. -/
theorem status_cases (s : State) :
    (∃ r, s.fault = some r ∧ status s = .faulted r) ∨
      (s.Running ∧ status s = .running) ∨
      (s.Done ∧ status s = .done) ∨
      (s.fault = none ∧ s.len < s.pc ∧ status s = .pastEnd) := by
  cases hf : s.fault with
  | some r => exact .inl ⟨r, rfl, status_of_fault hf⟩
  | none =>
    rcases lt_trichotomy s.pc s.len with hlt | heq | hgt
    · exact .inr (.inl ⟨⟨hf, hlt⟩, status_of_running ⟨hf, hlt⟩⟩)
    · exact .inr (.inr (.inl ⟨⟨hf, heq⟩, status_of_done ⟨hf, heq⟩⟩))
    · exact .inr (.inr (.inr ⟨rfl, hgt, status_of_pc_past_end hf hgt⟩))

theorem status_eq_faulted_iff (s : State) (r : FaultRecord) :
    status s = .faulted r ↔ s.fault = some r := by
  refine ⟨fun h => ?_, status_of_fault⟩
  rcases status_cases s with ⟨r', hf, e⟩ | ⟨_, e⟩ | ⟨_, e⟩ | ⟨_, _, e⟩ <;> rw [e] at h <;> cases h
  exact hf

theorem status_eq_running_iff (s : State) : status s = .running ↔ s.Running := by
  refine ⟨fun h => ?_, status_of_running⟩
  rcases status_cases s with ⟨_, _, e⟩ | ⟨hr, e⟩ | ⟨_, e⟩ | ⟨_, _, e⟩ <;> rw [e] at h <;> cases h
  exact hr

theorem status_eq_done_iff (s : State) : status s = .done ↔ s.Done := by
  refine ⟨fun h => ?_, status_of_done⟩
  rcases status_cases s with ⟨_, _, e⟩ | ⟨_, e⟩ | ⟨hd, e⟩ | ⟨_, _, e⟩ <;> rw [e] at h <;> cases h
  exact hd

/-- The fourth case of `status_cases` is out of reach while `pc` is within the stream. -/
theorem status_of_pc_le_len {s : State} (hpc : s.pc ≤ s.len) :
    status s = .done ∨ status s = .running ∨ ∃ r, status s = .faulted r := by
  rcases status_cases s with ⟨r, _, e⟩ | ⟨_, e⟩ | ⟨_, e⟩ | ⟨_, hgt, _⟩
  · exact .inr (.inr ⟨r, e⟩)
  · exact .inr (.inl e)
  · exact .inl e
  · omega

/-! ### A step needs a running state -/

/-- From the end of the stream on there is no byte to fetch, 40_fetch_decode.md R62. -/
theorem fetch_of_len_le_pc {s : State} (h : s.len ≤ s.pc) : fetch s = .endOfStream := by
  have hrem : s.remaining = [] := List.drop_eq_nil_of_le h
  rw [fetch, hrem, decode]

/-- Whatever a step does, it has fetched a byte at `pc`, so `pc` is before the end, R60. -/
theorem running_of_step_next {s t : State} (h : step s = .next t) : s.Running := by
  obtain ⟨hf, hfetch⟩ := step_next_cases h
  have hne : fetch s ≠ .endOfStream := by
    rcases hfetch with ⟨_, e, _⟩ | ⟨_, e, _⟩ | ⟨_, e, _⟩ <;> simp [e]
  exact ⟨hf, not_le.mp fun hle => hne (fetch_of_len_le_pc hle)⟩

/-- Settles O41: the three equivalences of `status`, the fourth answer excluded by `pc ≤ L`, and a
step's fetched byte as the reason that it starts in a running state. -/
theorem statusIsExactlyOneOfThree : Obligations.StatusIsExactlyOneOfThree := by
  intro s
  exact ⟨status_eq_done_iff s, status_eq_faulted_iff s, status_eq_running_iff s,
    status_of_pc_le_len, fun ⟨_, h⟩ => status_of_running (running_of_step_next h)⟩

end Sys2Proof.Machine
end

section
/-! What a step does to the parts of the state, said once: what running an instruction can answer, and
that a step leaves the program, and with it every fetch, as it was (10_state.md R16, 20_memory.md R40). -/

namespace Sys2Proof.Machine

/-! ### The next states of `exec` and `step` -/

/-- An instruction that completes sets the accumulator or, STORE_MEM alone, one cell, and advances by
its width; one whose cell index is out of range writes the fault record only. -/
theorem exec_next_cases {i : Instr} {s t : State} (h : exec i s = .next t) :
    (∃ v, (∀ addr, i ≠ .storeMem addr) ∧ t = (s.setAcc v).advance i.width) ∨
      (∃ addr, i = .storeMem addr ∧ addr.toNat < Config.memCells ∧
        t = (s.setMem (s.mem.write addr.toNat s.acc)).advance i.width) ∨
      (∃ index, Config.memCells ≤ index ∧ t = s.raise .boundsError index) := by
  cases i with
  | loadConst imm =>
    cases h
    exact .inl ⟨immediate imm, nofun, rfl⟩
  | loadMem =>
    rw [exec] at h
    rcases execLoadMem_cases s with ⟨_, e⟩ | ⟨hge, e⟩ <;> rw [e] at h <;> cases h
    · exact .inl ⟨_, nofun, rfl⟩
    · exact .inr (.inr ⟨_, hge, rfl⟩)
  | storeMem addr =>
    rw [exec] at h
    rcases execStoreMem_cases addr s with ⟨hlt, e⟩ | ⟨hge, e⟩ <;> rw [e] at h <;> cases h
    · exact .inr (.inl ⟨addr, rfl, hlt, rfl⟩)
    · exact .inr (.inr ⟨_, hge, rfl⟩)
  | shr addr =>
    rw [exec] at h
    rcases execShr_cases addr s with ⟨_, e⟩ | ⟨hge, e⟩ <;> rw [e] at h <;> cases h
    · exact .inl ⟨_, nofun, rfl⟩
    · exact .inr (.inr ⟨_, hge, rfl⟩)

/-- `step_next_cases` with the instruction run: a step completes an instruction that is no store,
completes a STORE_MEM, or records a fault. -/
theorem step_next_effects {s t : State} (h : step s = .next t) :
    (∃ i v, fetch s = .instr i ∧ (∀ addr, i ≠ .storeMem addr) ∧
        t = (s.setAcc v).advance i.width) ∨
      (∃ addr, fetch s = .instr (.storeMem addr) ∧ addr.toNat < Config.memCells ∧
        t = (s.setMem (s.mem.write addr.toNat s.acc)).advance 5) ∨
      (∃ cause info, t = s.raise cause info) := by
  obtain ⟨-, ⟨i, hi, hx⟩ | ⟨_, -, rfl⟩ | ⟨_, -, rfl⟩⟩ := step_next_cases h
  · rcases exec_next_cases hx with ⟨v, hne, rfl⟩ | ⟨addr, rfl, hlt, rfl⟩ | ⟨index, -, rfl⟩
    · exact .inl ⟨i, v, hi, hne, rfl⟩
    · exact .inr (.inl ⟨addr, hi, hlt, rfl⟩)
    · exact .inr (.inr ⟨_, index, rfl⟩)
  · exact .inr (.inr ⟨_, _, rfl⟩)
  · exact .inr (.inr ⟨_, _, rfl⟩)

/-! ### The program under a step -/

theorem step_prog {s t : State} (h : step s = .next t) : t.prog = s.prog := by
  rcases step_next_effects h with ⟨_, _, -, -, rfl⟩ | ⟨_, -, -, rfl⟩ | ⟨_, _, rfl⟩ <;> simp

/-- A fetch depends on the program and `pc` alone, 40_fetch_decode.md R61. -/
theorem fetch_congr {s t : State} (hprog : s.prog = t.prog) (hpc : s.pc = t.pc) :
    fetch s = fetch t := by
  simp only [fetch, State.remaining, hprog, hpc]

/-- Settles O29: a step keeps the program, and a fetch reads nothing else at a given offset. -/
theorem storesAreNeverSeenByFetch : Obligations.StoresAreNeverSeenByFetch := by
  intro s t h
  have hprog : t.prog = s.prog := step_prog h
  exact ⟨hprog, fun pc => fetch_congr hprog rfl⟩

end Sys2Proof.Machine
end

section
/-! The data memory over a write, over a step and over a run (20_memory.md R34, R37). -/

namespace Sys2Proof.Machine

/-! ### One write -/

theorem memWrite_ok {addr : Nat} (v : Word) (s : State) (h : addr < Config.memCells) :
    memWrite addr v s = .ok (s.setMem (s.mem.write addr v)) :=
  if_pos h

theorem memWrite_error {addr : Nat} (v : Word) (s : State) (h : Config.memCells ≤ addr) :
    memWrite addr v s = .error addr :=
  if_neg h.not_gt

/-- Settles O8: the two answers of `memWrite`, and reading back what `Memory.write` wrote. -/
theorem memWriteChangesOneCell : Obligations.MemWriteChangesOneCell := by
  intro addr v s
  refine ⟨memWrite_error v s, fun hlt =>
    ⟨_, memWrite_ok v s hlt, ?_, fun j hj => ?_, rfl, rfl, rfl, rfl⟩⟩
  · rw [State.setMem_mem, Memory.read_write, if_pos rfl]
  · rw [State.setMem_mem, Memory.read_write, if_neg hj]

/-! ### A run, one step at a time -/

theorem runFor_succ_of_next {s t : State} (k : Nat) (h : step s = .next t) :
    runFor (k + 1) s = runFor k t := by
  rw [runFor, h]

/-- Where no step exists the machine stays as it is, 40_fetch_decode.md R60. -/
theorem runFor_of_no_step {s : State} (h : ∀ t, step s ≠ .next t) (k : Nat) : runFor k s = s := by
  cases k with
  | zero => rfl
  | succ k =>
    rw [runFor]
    split
    · exact absurd ‹_› (h _)
    · rfl
    · rfl

end Sys2Proof.Machine

namespace Sys2Proof.Safety

open Sys2Proof.Machine

/-! ### Reading a cell off a log of stores -/

@[simp] theorem latest_nil (i : Nat) (v : Word) : latest i v [] = v := rfl

theorem latest_cons (i : Nat) (v : Word) (c : Nat × Word) (log : List (Nat × Word)) :
    latest i v (c :: log) = if c.1 = i then c.2 else latest i v log := by
  by_cases h : c.1 = i <;> simp [latest, h]

/-- In a log with the newer stores first, the older ones only set what the newer ones start from. -/
theorem latest_append (i : Nat) (v : Word) (newer older : List (Nat × Word)) :
    latest i v (newer ++ older) = latest i (latest i v older) newer := by
  induction newer with
  | nil => rfl
  | cons c newer ih => rw [List.cons_append, latest_cons, latest_cons, ih]

/-! ### The store of one step -/

theorem storeOf_of_fetch_storeMem {s t : State} {addr : Field}
    (hfetch : fetch s = .instr (.storeMem addr)) (ht : t.fault = none) :
    storeOf s t = [(absoluteIndex addr, s.acc)] := by
  simp [storeOf, hfetch, ht]

/-- A STORE_MEM that faulted completed no store, and no other instruction ever does. -/
theorem storeOf_eq_nil {s t : State}
    (h : ∀ addr, fetch s = .instr (.storeMem addr) → t.fault ≠ none) : storeOf s t = [] := by
  unfold storeOf
  split
  · exact if_neg (h _ ‹_›)
  · rfl

/-- The commuting step of R37: what a cell reads after a step is what the step's own store, if any,
makes of what it read before. -/
theorem step_mem_read {s t : State} (h : step s = .next t) (i : Nat) :
    t.mem.read i = latest i (s.mem.read i) (storeOf s t) := by
  rcases step_next_effects h with ⟨j, v, hfetch, hne, rfl⟩ | ⟨addr, hfetch, -, rfl⟩ | ⟨_, _, rfl⟩
  · have hnil : storeOf s ((s.setAcc v).advance j.width) = [] :=
      storeOf_eq_nil fun addr e => absurd (by simpa [hfetch] using e) (hne addr)
    simp [hnil]
  · have hnone : s.fault = none := (step_next_cases h).1
    rw [storeOf_of_fetch_storeMem hfetch (by simpa using hnone), latest_cons, latest_nil,
      State.advance_mem, State.setMem_mem, Memory.read_write, absoluteIndex]
    exact if_congr eq_comm rfl rfl
  · rw [storeOf_eq_nil fun _ _ => by simp, latest_nil, State.raise_mem]

/-! ### The log of a run, one step at a time -/

theorem storeLog_succ_of_next {s t : State} (k : Nat) (h : step s = .next t) :
    storeLog (k + 1) s = storeLog k t ++ storeOf s t := by
  rw [storeLog, h]

theorem storeLog_of_no_step {s : State} (h : ∀ t, step s ≠ .next t) (k : Nat) :
    storeLog k s = [] := by
  cases k with
  | zero => rfl
  | succ k =>
    rw [storeLog]
    split
    · exact absurd ‹_› (h _)
    · rfl
    · rfl

theorem runFor_mem_read (k : Nat) (s : State) (i : Nat) :
    (runFor k s).mem.read i = latest i (s.mem.read i) (storeLog k s) := by
  induction k generalizing s with
  | zero => rfl
  | succ k ih =>
    by_cases hstep : ∃ t, step s = .next t
    · obtain ⟨t, ht⟩ := hstep
      calc (runFor (k + 1) s).mem.read i
          = (runFor k t).mem.read i := by rw [runFor_succ_of_next k ht]
        _ = latest i (t.mem.read i) (storeLog k t) := ih t
        _ = latest i (latest i (s.mem.read i) (storeOf s t)) (storeLog k t) := by
          rw [step_mem_read ht]
        _ = latest i (s.mem.read i) (storeLog (k + 1) s) := by
          rw [storeLog_succ_of_next k ht, latest_append]
    · have hno : ∀ t, step s ≠ .next t := fun t e => hstep ⟨t, e⟩
      rw [runFor_of_no_step hno, storeLog_of_no_step hno, latest_nil]

/-- Settles O10: induction on the number of steps over `step_mem_read`; every cell reads 0 at boot. -/
theorem cellHoldsLatestStore : Obligations.CellHoldsLatestStore :=
  ⟨runFor_mem_read, fun k bs i => runFor_mem_read k (boot bs) i⟩

end Sys2Proof.Safety
end

section
/-! The decoder opcode by opcode: what each row of 30_encoding.md R45 makes of the bytes at hand, and
the immediate of LOAD_CONST (R50). -/

namespace Sys2Proof

/-! ### The nibble of byte 0 selects the row of the opcode map -/

theorem lowNibble_eq_ofNat (b : Byte) : lowNibble b = BitVec.ofNat 4 b.toNat := by
  apply BitVec.eq_of_toNat_eq
  rw [lowNibble_toNat, BitVec.toNat_ofNat]

/-- The nibble as the spec writes it, a number below 16, selects the operation. -/
theorem Opcode.ofNibble_lowNibble_eq_some (b : Byte) (op : Opcode) :
    Opcode.ofNibble (lowNibble b) = some op ↔ b.toNat % 16 = op.nibble.toNat := by
  rw [Opcode.ofNibble_eq_some, ← BitVec.toNat_inj, lowNibble_toNat]

theorem decode_cons_loadConst {b0 : Byte} (rest : List Byte) (h : b0.toNat % 16 = 0xD) :
    decode (b0 :: rest) = decodeFormatK .loadConst .loadConst b0 rest := by
  rw [decode, (Opcode.ofNibble_lowNibble_eq_some b0 .loadConst).2 h]

theorem decode_cons_loadMem {b0 : Byte} (rest : List Byte) (h : b0.toNat % 16 = 0x5) :
    decode (b0 :: rest) = .instr .loadMem := by
  rw [decode, (Opcode.ofNibble_lowNibble_eq_some b0 .loadMem).2 h]

theorem decode_cons_storeMem {b0 : Byte} (rest : List Byte) (h : b0.toNat % 16 = 0xC) :
    decode (b0 :: rest) = decodeFormatA .storeMem .storeMem b0 rest := by
  rw [decode, (Opcode.ofNibble_lowNibble_eq_some b0 .storeMem).2 h]

theorem decode_cons_shr {b0 : Byte} (rest : List Byte) (h : b0.toNat % 16 = 0x1) :
    decode (b0 :: rest) = decodeFormatA .shr .shr b0 rest := by
  rw [decode, (Opcode.ofNibble_lowNibble_eq_some b0 .shr).2 h]

/-- A nibble of no row is illegal whatever follows it, 30_encoding.md R52. -/
theorem decode_cons_illegal {b0 : Byte} (rest : List Byte)
    (h : ∀ op : Opcode, b0.toNat % 16 ≠ op.nibble.toNat) :
    decode (b0 :: rest) = .unknownOpcode (lowNibble b0) := by
  have hnone : Opcode.ofNibble (lowNibble b0) = none :=
    Option.eq_none_iff_forall_ne_some.2 fun op e =>
      h op ((Opcode.ofNibble_lowNibble_eq_some b0 op).1 e)
  rw [decode, hnone]

/-! ### The frame check of each format -/

theorem decodeFormatK_cases (op : Opcode) (mk : Field → Instr) (b0 : Byte) (rest : List Byte) :
    (4 ≤ (b0 :: rest).length ∧ ∃ f, decodeFormatK op mk b0 rest = .instr (mk f)) ∨
      ((b0 :: rest).length < 4 ∧ decodeFormatK op mk b0 rest = .truncated op.width) := by
  match rest with
  | b1 :: b2 :: b3 :: _ => exact .inl ⟨by simp, operandField (le32 b0 b1 b2 b3), rfl⟩
  | [] | [_] | [_, _] => exact .inr ⟨by simp, rfl⟩

theorem decodeFormatA_cases (op : Opcode) (mk : Field → Instr) (b0 : Byte) (rest : List Byte) :
    (5 ≤ (b0 :: rest).length ∧ ∃ f, decodeFormatA op mk b0 rest = .instr (mk f)) ∨
      ((b0 :: rest).length < 5 ∧ decodeFormatA op mk b0 rest = .truncated op.width) := by
  match rest with
  | b1 :: b2 :: b3 :: _ :: _ => exact .inl ⟨by simp, operandField (le32 b0 b1 b2 b3), rfl⟩
  | [] | [_] | [_, _] | [_, _, _] => exact .inr ⟨by simp, rfl⟩

/-! ### The row selected, with its length -/

/-- Once byte 0 has selected an operation, only the number of bytes at hand decides between an
instruction of that operation and a truncated frame of its width, R45 and 40_fetch_decode.md R66. -/
theorem decode_cons_cases {b0 : Byte} {op : Opcode} (rest : List Byte)
    (h : b0.toNat % 16 = op.nibble.toNat) :
    (op.width ≤ (b0 :: rest).length ∧ ∃ i, i.opcode = op ∧ decode (b0 :: rest) = .instr i) ∨
      ((b0 :: rest).length < op.width ∧ decode (b0 :: rest) = .truncated op.width) := by
  cases op with
  | loadConst =>
    rw [decode_cons_loadConst rest h]
    exact (decodeFormatK_cases .loadConst .loadConst b0 rest).imp_left
      fun ⟨hlen, f, e⟩ => ⟨hlen, .loadConst f, rfl, e⟩
  | loadMem => exact .inl ⟨by simp, .loadMem, rfl, decode_cons_loadMem rest h⟩
  | storeMem =>
    rw [decode_cons_storeMem rest h]
    exact (decodeFormatA_cases .storeMem .storeMem b0 rest).imp_left
      fun ⟨hlen, f, e⟩ => ⟨hlen, .storeMem f, rfl, e⟩
  | shr =>
    rw [decode_cons_shr rest h]
    exact (decodeFormatA_cases .shr .shr b0 rest).imp_left
      fun ⟨hlen, f, e⟩ => ⟨hlen, .shr f, rfl, e⟩

/-- What byte 0 promises: nothing but an instruction of its operation and width comes of it, and one
does as soon as that many bytes are there, R45. -/
theorem decode_cons_of_opcode (op : Opcode) {b0 : Byte} (rest : List Byte)
    (h : b0.toNat % 16 = op.nibble.toNat) :
    (∀ i, decode (b0 :: rest) = .instr i → i.opcode = op ∧ i.width = op.width) ∧
      (op.width ≤ (b0 :: rest).length → ∃ i, decode (b0 :: rest) = .instr i) := by
  rcases decode_cons_cases rest h with ⟨_, i, hop, e⟩ | ⟨hlt, e⟩ <;> rw [e]
  · refine ⟨fun j hj => ?_, fun _ => ⟨i, rfl⟩⟩
    cases hj
    exact ⟨hop, congrArg Opcode.width hop⟩
  · exact ⟨nofun, fun hle => absurd hlt hle.not_gt⟩

/-- Settles O4: each legal nibble is an opcode's, and `decode_cons_of_opcode` gives that opcode's
instruction at its width; a nibble of no opcode is illegal. -/
theorem lowNibbleGivesLength : Obligations.LowNibbleGivesLength := by
  intro b0 rest
  refine ⟨decode_cons_of_opcode .loadConst rest, fun h => ⟨decode_cons_loadMem rest h, rfl⟩,
    decode_cons_of_opcode .storeMem rest, decode_cons_of_opcode .shr rest, fun h => ?illegal⟩
  case illegal =>
    have hne : ∀ op : Opcode, b0.toNat % 16 ≠ op.nibble.toNat := by
      intro op e
      rw [e] at h
      cases op <;> exact h (by decide)
    rw [decode_cons_illegal rest hne, lowNibble_eq_ofNat]

/-! ### The operand of a whole window -/

/-- `W >> 4` as the sum over the bytes, 30_encoding.md R50, R51. -/
theorem operandField_le32_toNat (b0 b1 b2 b3 : Byte) :
    (operandField (le32 b0 b1 b2 b3)).toNat =
      b0.toNat / 16 + 16 * b1.toNat + 4096 * b2.toNat + 1048576 * b3.toNat := by
  rw [operandField_toNat, le32_toNat]
  omega

theorem decode_loadConst_window {b0 : Byte} (b1 b2 b3 : Byte) (rest : List Byte)
    (h : b0.toNat % 16 = 0xD) :
    decode (b0 :: b1 :: b2 :: b3 :: rest) =
      .instr (.loadConst (operandField (le32 b0 b1 b2 b3))) := by
  rw [decode_cons_loadConst _ h, decodeFormatK]

end Sys2Proof

namespace Sys2Proof.Machine

/-- The immediate is zero-extended, so it keeps its number, 30_encoding.md R50. -/
theorem immediate_toNat (imm : Field) : (immediate imm).toNat = imm.toNat :=
  BitVec.toNat_setWidth_of_le (by decide)

theorem exec_loadConst (imm : Field) (s : State) :
    exec (.loadConst imm) s = .next ((s.setAcc (immediate imm)).advance 4) := rfl

/-- Settles O5: the decoded immediate is the window's operand field, and LOAD_CONST zero-extends it. -/
theorem immediateIsWindowShiftedByFour : Obligations.ImmediateIsWindowShiftedByFour := by
  intro b0 b1 b2 b3 rest s h
  refine ⟨operandField (le32 b0 b1 b2 b3), _, decode_loadConst_window b1 b2 b3 rest h, ?_,
    operandField_le32_toNat b0 b1 b2 b3, exec_loadConst _ s, ?_⟩
  · rw [operandField_toNat, le32_toNat]
  · rw [State.advance_acc, State.setAcc_acc, immediate_toNat]

end Sys2Proof.Machine
end

section
/-! The bytes the assembler emits (30_encoding.md R56, R58): the Encoder's arithmetic in closed form,
and how much of an operand it keeps. -/

namespace Sys2Proof

/-! ### Numbers cut into bytes -/

theorem byte_ofNat_congr {m n : Nat} (h : m % 256 = n % 256) :
    BitVec.ofNat 8 m = BitVec.ofNat 8 n :=
  BitVec.eq_of_toNat_eq (by simpa using h)

theorem leBytes_four (w : Nat) :
    leBytes 4 w = [BitVec.ofNat 8 w, BitVec.ofNat 8 (w / 2 ^ 8), BitVec.ofNat 8 (w / 2 ^ 16),
      BitVec.ofNat 8 (w / 2 ^ 24)] := by
  simp only [leBytes, Nat.div_div_eq_div_mul]
  rfl

end Sys2Proof

namespace Sys2Proof.Assembler

/-- An opcode below an operand shifted past it: the two do not overlap, so `|` is a sum. -/
theorem nibble_or_shiftLeft (op : Opcode) (n : Nat) :
    op.nibble.toNat ||| n <<< 4 = 16 * n + op.nibble.toNat := by
  rw [Nat.lor_comm, ← Nat.shiftLeft_add_eq_or_of_lt op.nibble.isLt, Nat.shiftLeft_eq, Nat.mul_comm]

/-! ### LOAD_CONST -/

/-- Byte by byte, 30_encoding.md R56. -/
theorem constantBytes_eq (v : Nat) :
    constantBytes v =
      [BitVec.ofNat 8 (16 * (v % 16) + 0xD), BitVec.ofNat 8 (v / 2 ^ 4),
        BitVec.ofNat 8 (v / 2 ^ 12), BitVec.ofNat 8 (v / 2 ^ 20)] := by
  have hw : 0xD ||| v <<< 4 = 16 * v + 0xD := nibble_or_shiftLeft .loadConst v
  rw [constantBytes, hw, leBytes_four,
    byte_ofNat_congr (n := 16 * (v % 16) + 0xD) (by omega),
    show (16 * v + 0xD) / 2 ^ 8 = v / 2 ^ 4 by omega,
    show (16 * v + 0xD) / 2 ^ 16 = v / 2 ^ 12 by omega,
    show (16 * v + 0xD) / 2 ^ 24 = v / 2 ^ 20 by omega]

/-- The bits from 28 up are not emitted, 30_encoding.md R56. -/
theorem constantBytes_congr {v w : Nat} (h : v % 2 ^ 28 = w % 2 ^ 28) :
    constantBytes v = constantBytes w := by
  rw [constantBytes_eq, constantBytes_eq,
    byte_ofNat_congr (m := v / 2 ^ 4) (n := w / 2 ^ 4) (by omega),
    byte_ofNat_congr (m := v / 2 ^ 12) (n := w / 2 ^ 12) (by omega),
    byte_ofNat_congr (m := v / 2 ^ 20) (n := w / 2 ^ 20) (by omega),
    show v % 16 = w % 16 by omega]

/-- Settles O44: the closed form of the bytes, which keeps 28 bits of the operand. -/
theorem loadConstAssemblesTo : Obligations.LoadConstAssemblesTo :=
  fun v => ⟨constantBytes_eq v, constantBytes_congr (Nat.mod_mod v _).symm⟩

/-! ### STORE_MEM and SHR -/

/-- A big-endian field with one byte at its top has that byte first and three zeros, R58. -/
theorem beBytes4_shiftLeft_24 (n : Nat) :
    beBytes4 (n <<< 24) = [BitVec.ofNat 8 n, 0x00#8, 0x00#8, 0x00#8] := by
  rw [beBytes4, leBytes_four, Nat.shiftLeft_eq, Nat.mul_div_cancel n (by decide),
    byte_ofNat_congr (m := n * 2 ^ 24) (n := 0) (by omega),
    byte_ofNat_congr (m := n * 2 ^ 24 / 2 ^ 8) (n := 0) (by omega),
    byte_ofNat_congr (m := n * 2 ^ 24 / 2 ^ 16) (n := 0) (by omega)]
  rfl

/-- Byte by byte, 30_encoding.md R58. -/
theorem addressBytes_eq (op : Opcode) (a : Nat) :
    addressBytes op a =
      [BitVec.ofNat 8 (16 * (a % 16) + op.nibble.toNat), BitVec.ofNat 8 (a / 2 ^ 4),
        0x00#8, 0x00#8, 0x00#8] := by
  have mask (n : Nat) : n &&& 0xFF = n % 256 := Nat.and_two_pow_sub_one_eq_mod n 8
  rw [addressBytes, nibble_or_shiftLeft, mask, mask, beBytes4_shiftLeft_24,
    Nat.shiftRight_eq_div_pow,
    byte_ofNat_congr (n := 16 * (a % 16) + op.nibble.toNat) (by omega),
    byte_ofNat_congr (n := a / 2 ^ 4) (Nat.mod_mod _ _)]

/-- The bits from 12 up are dropped, 30_encoding.md R58. -/
theorem addressBytes_congr (op : Opcode) {a b : Nat} (h : a % 4096 = b % 4096) :
    addressBytes op a = addressBytes op b := by
  rw [addressBytes_eq, addressBytes_eq,
    byte_ofNat_congr (m := a / 2 ^ 4) (n := b / 2 ^ 4) (by omega), show a % 16 = b % 16 by omega]

/-- Settles O45: both mnemonics are `addressBytes` of their opcode, which keeps 12 bits of the
address and compares it with nothing. -/
theorem addressLinesAssembleTo : Obligations.AddressLinesAssembleTo := by
  intro a
  have hcut : a % 4096 = a % 4096 % 4096 := (Nat.mod_mod a 4096).symm
  exact ⟨addressBytes_eq .storeMem a, addressBytes_eq .shr a,
    addressBytes_congr .storeMem hcut, addressBytes_congr .shr hcut⟩

end Sys2Proof.Assembler
end

section
/-! When a step exists, what it answers and where it leaves `pc` (40_fetch_decode.md R60, R69). -/

namespace Sys2Proof

/-- The low nibble of a byte is an opcode's or illegal, 30_encoding.md R49, R52; both are answers
about the byte, so the frame boundary is met only where there is none, 40_fetch_decode.md R62. -/
theorem decode_cons_ne_endOfStream (b0 : Byte) (rest : List Byte) :
    decode (b0 :: rest) ≠ .endOfStream := by
  by_cases hop : ∃ op : Opcode, b0.toNat % 16 = op.nibble.toNat
  · obtain ⟨op, h⟩ := hop
    rcases decode_cons_cases rest h with ⟨_, i, _, e⟩ | ⟨_, e⟩ <;> simp [e]
  · simp [decode_cons_illegal rest (not_exists.1 hop)]

end Sys2Proof

namespace Sys2Proof.Machine

/-! ### Every instruction has a next state -/

/-- Completing and raising `BoundsError` are both next states, 40_fetch_decode.md R71. -/
theorem finish_eq_next (len : Nat) (s : State) (r : Except Nat State) :
    ∃ t, finish len s r = .next t := by
  cases r with
  | ok t => exact ⟨_, finish_ok len s t⟩
  | error index => exact ⟨_, finish_error len index s⟩

theorem exec_eq_next (i : Instr) (s : State) : ∃ t, exec i s = .next t := by
  cases i with
  | loadConst imm => exact ⟨_, exec_loadConst imm s⟩
  | loadMem => exact finish_eq_next _ s _
  | storeMem addr => exact finish_eq_next _ s _
  | shr addr => exact finish_eq_next _ s _

/-! ### The step by what was fetched -/

theorem step_of_fetch_instr {s : State} {i : Instr} (hf : s.fault = none)
    (h : fetch s = .instr i) : step s = exec i s := by
  simp [step, hf, h]

theorem step_of_fetch_unknownOpcode {s : State} {nibble : Nibble} (hf : s.fault = none)
    (h : fetch s = .unknownOpcode nibble) :
    step s = .next (s.raise .unknownOpcode nibble.toNat) := by
  simp [step, hf, h, raiseUnknownOpcode]

theorem step_of_fetch_truncated {s : State} {len : Nat} (hf : s.fault = none)
    (h : fetch s = .truncated len) :
    step s = .next (s.raise .truncatedInstruction len) := by
  simp [step, hf, h, raiseTruncated]

/-! ### A running state has a step -/

/-- With `pc < L` there is a byte to fetch, 40_fetch_decode.md R62. -/
theorem fetch_ne_endOfStream {s : State} (h : s.pc < s.len) : fetch s ≠ .endOfStream := by
  have hrem : s.remaining = s.prog[s.pc] :: s.prog.drop (s.pc + 1) := List.drop_eq_getElem_cons h
  rw [fetch, hrem]
  exact decode_cons_ne_endOfStream _ _

/-- A running state runs the instruction decoded or records one fault of the fetch, R60, R71. -/
theorem step_of_running {s : State} (h : s.Running) :
    (∃ i, fetch s = .instr i ∧ step s = exec i s) ∨
      ∃ cause info, (∀ i, fetch s ≠ .instr i) ∧ step s = .next (s.raise cause info) := by
  obtain ⟨hf, hpc⟩ := h
  cases hd : fetch s with
  | instr i => exact .inl ⟨i, rfl, step_of_fetch_instr hf hd⟩
  | unknownOpcode nibble => exact .inr ⟨_, _, nofun, step_of_fetch_unknownOpcode hf hd⟩
  | truncated len => exact .inr ⟨_, _, nofun, step_of_fetch_truncated hf hd⟩
  | endOfStream => exact absurd hd (fetch_ne_endOfStream hpc)

theorem exists_step_next_iff_running (s : State) : (∃ t, step s = .next t) ↔ s.Running := by
  refine ⟨fun ⟨_, h⟩ => running_of_step_next h, fun h => ?_⟩
  rcases step_of_running h with ⟨i, _, e⟩ | ⟨_, _, _, e⟩
  · rw [e]
    exact exec_eq_next i s
  · exact ⟨_, e⟩

theorem runFor_of_not_running {s : State} (h : ¬ s.Running) (k : Nat) : runFor k s = s :=
  runFor_of_no_step (fun _ e => h (running_of_step_next e)) k

/-- Settles O25: a running state has a byte to fetch and every answer of the fetch but the frame
boundary gives a step; a done or faulted state is not running. -/
theorem stepExistsExactlyWhenRunning : Obligations.StepExistsExactlyWhenRunning := by
  intro s
  exact ⟨exists_step_next_iff_running s, fun hf hpc => step_of_running ⟨hf, hpc⟩,
    fun _ hpc => runFor_of_not_running fun hr => hr.2.ne hpc,
    fun hf => runFor_of_not_running fun hr => hf hr.1⟩

/-! ### Where a step leaves `pc` -/

/-- A completed instruction advances by its width, a fault leaves `pc`, and the fault record of the
next state tells which of the two it was, 40_fetch_decode.md R69. -/
theorem step_pc_cases {s t : State} (h : step s = .next t) :
    (t.fault = none ∧ ∃ i, fetch s = .instr i ∧ t.pc = s.pc + i.width) ∨
      (t.fault ≠ none ∧ t.pc = s.pc) := by
  have ⟨hf, _⟩ : s.Running := running_of_step_next h
  rcases step_next_effects h with ⟨i, _, hi, _, rfl⟩ | ⟨addr, hi, _, rfl⟩ | ⟨_, _, rfl⟩
  · exact .inl ⟨hf, i, hi, rfl⟩
  · exact .inl ⟨hf, .storeMem addr, hi, rfl⟩
  · exact .inr ⟨nofun, rfl⟩

/-- Settles O26: the two cases of `step_pc_cases`; the rise is strict because no width is 0. -/
theorem stepAdvancesByWidthUnlessItFaults : Obligations.StepAdvancesByWidthUnlessItFaults := by
  intro s t h
  rcases step_pc_cases h with ⟨hnone, i, hi, hpc⟩ | ⟨hsome, hpc⟩
  · have hrise : s.pc < t.pc := hpc ▸ Nat.lt_add_of_pos_right i.width_pos
    exact ⟨fun _ => ⟨i, hi, hpc, hrise⟩, fun hsome => absurd hnone hsome⟩
  · exact ⟨fun hnone => absurd hnone hsome, fun _ => hpc⟩

end Sys2Proof.Machine
end

section
/-! The whole step of LOAD_MEM from the byte at `pc` (41_load.md R76). -/

namespace Sys2Proof.Machine

/-- A running state with nibble 0x5 at `pc` runs LOAD_MEM: format N is that one byte, so no frame
check can fail, 30_encoding.md R48. -/
theorem step_of_remaining_loadMem {s : State} {b0 : Byte} {rest : List Byte} (hf : s.fault = none)
    (hrem : s.remaining = b0 :: rest) (h : b0.toNat % 16 = 0x5) : step s = execLoadMem s := by
  have hfetch : fetch s = .instr .loadMem := by rw [fetch, hrem, decode_cons_loadMem rest h]
  rw [step_of_fetch_instr hf hfetch, exec]

/-- Settles O19: the step is `execLoadMem`, and its two cases are those of the accumulator below 1024
and from 1024 on. -/
theorem loadMemStep : Obligations.LoadMemStep := by
  intro s b0 rest hf hrem h
  have hstep : step s = execLoadMem s := step_of_remaining_loadMem hf hrem h
  rcases execLoadMem_cases s with ⟨hlt, e⟩ | ⟨hge, e⟩
  · exact ⟨fun _ => hstep.trans e, fun hle => absurd hlt hle.not_gt⟩
  · exact ⟨fun hlt => absurd hlt hge.not_gt, fun _ => hstep.trans e⟩

end Sys2Proof.Machine
end

section
/-! The faults of 60_exceptions.md R96 and R98: the illegal nibble, and the cell index out of range. -/

namespace Sys2Proof.Machine

/-! ### An illegal nibble -/

/-- A byte whose low nibble is no opcode's decides the step alone, R96. -/
theorem step_of_remaining_illegal {s : State} {b0 : Byte} {rest : List Byte} (hf : s.fault = none)
    (hrem : s.remaining = b0 :: rest) (h : ∀ op : Opcode, b0.toNat % 16 ≠ op.nibble.toNat) :
    step s = .next (s.raise .unknownOpcode (b0.toNat % 16)) := by
  have hfetch : fetch s = .unknownOpcode (lowNibble b0) := by
    rw [fetch, hrem, decode_cons_illegal rest h]
  rw [step_of_fetch_unknownOpcode hf hfetch, lowNibble_toNat]

/-- Settles O22: none of the twelve nibbles is an opcode's, so the step records the nibble. -/
theorem illegalNibbleRaisesUnknownOpcode : Obligations.IllegalNibbleRaisesUnknownOpcode := by
  intro s b0 rest hf hrem h
  have hne : ∀ op : Opcode, b0.toNat % 16 ≠ op.nibble.toNat := by
    intro op e
    rw [e] at h
    cases op <;> exact absurd h (by decide)
  exact step_of_remaining_illegal hf hrem hne

/-! ### The cell an instruction addresses -/

/-- The index of the data cell that an instruction reads or writes, if it has one: through `acc` for
LOAD_MEM, absolute for STORE_MEM and SHR, 20_memory.md R27. -/
def cellIndex (s : State) : Instr → Option Nat
  | .loadConst _ => none
  | .loadMem => some (indirectIndex s)
  | .storeMem addr => some (absoluteIndex addr)
  | .shr addr => some (absoluteIndex addr)

theorem cellIndex_eq_some_iff (s : State) (i : Instr) (index : Nat) :
    cellIndex s i = some index ↔
      (i = .loadMem ∧ index = s.acc.toNat ∨
        ∃ addr, (i = .storeMem addr ∨ i = .shr addr) ∧ index = addr.toNat) := by
  cases i <;> simp [cellIndex, indirectIndex, absoluteIndex, eq_comm]

/-- What the cell index decides, R98: with none, or one below 1024, the instruction completes and
leaves the fault record as it was; with one of 1024 or more it records `BoundsError` and does nothing
else. -/
theorem exec_cases_of_cellIndex (i : Instr) (s : State) :
    ((∀ index, cellIndex s i = some index → index < Config.memCells) ∧
        ∃ t, exec i s = .next t ∧ t.fault = s.fault) ∨
      (∃ index, cellIndex s i = some index ∧ Config.memCells ≤ index ∧
        exec i s = .next (s.raise .boundsError index)) := by
  cases i with
  | loadConst imm => exact .inl ⟨nofun, _, exec_loadConst imm s, rfl⟩
  | loadMem =>
    exact (execLoadMem_cases s).imp (fun ⟨hlt, e⟩ => ⟨fun | _, rfl => hlt, _, e, rfl⟩)
      (fun ⟨hge, e⟩ => ⟨_, rfl, hge, e⟩)
  | storeMem addr =>
    exact (execStoreMem_cases addr s).imp (fun ⟨hlt, e⟩ => ⟨fun | _, rfl => hlt, _, e, rfl⟩)
      (fun ⟨hge, e⟩ => ⟨_, rfl, hge, e⟩)
  | shr addr =>
    exact (execShr_cases addr s).imp (fun ⟨hlt, e⟩ => ⟨fun | _, rfl => hlt, _, e, rfl⟩)
      (fun ⟨hge, e⟩ => ⟨_, rfl, hge, e⟩)

theorem exec_of_cellIndex_out_of_range {s : State} {i : Instr} {index : Nat}
    (h : cellIndex s i = some index) (hge : Config.memCells ≤ index) :
    exec i s = .next (s.raise .boundsError index) := by
  rcases exec_cases_of_cellIndex i s with ⟨hlt, _⟩ | ⟨index', h', _, e⟩
  · exact absurd (hlt index h) hge.not_gt
  · cases h.symm.trans h'
    exact e

/-- A cell index out of range is the only reason for a fault record to change. -/
theorem cellIndex_out_of_range_of_exec {s t : State} {i : Instr} (h : exec i s = .next t)
    (hne : t.fault ≠ s.fault) : ∃ index, cellIndex s i = some index ∧ Config.memCells ≤ index := by
  rcases exec_cases_of_cellIndex i s with ⟨_, t', e, hsame⟩ | ⟨index, hindex, hge, _⟩
  · cases h.symm.trans e
    exact absurd hsame hne
  · exact ⟨index, hindex, hge⟩

/-- Settles O24: the step is the instruction's `exec`, which faults for a cell index of 1024 or more
and for nothing else; LOAD_CONST has no cell index. -/
theorem boundsErrorExactlyWhenIndexOutOfRange :
    Obligations.BoundsErrorExactlyWhenIndexOutOfRange := by
  intro s i hf hfetch
  have hstep : step s = exec i s := step_of_fetch_instr hf hfetch
  refine ⟨fun index hindex hge => ?outOfRange, fun t ht hfault => ?onlyThen,
    fun imm hi => ?loadConst⟩
  case outOfRange =>
    have hcell : cellIndex s i = some index := (cellIndex_eq_some_iff s i index).2 hindex
    exact hstep.trans (exec_of_cellIndex_out_of_range hcell hge)
  case onlyThen =>
    obtain ⟨index, hcell, hge⟩ :=
      cellIndex_out_of_range_of_exec (hstep.symm.trans ht) (hf ▸ hfault)
    exact ⟨index, hge, (cellIndex_eq_some_iff s i index).1 hcell⟩
  case loadConst =>
    subst hi
    exact ⟨_, hstep.trans (exec_loadConst imm s), hf⟩

end Sys2Proof.Machine
end

section
/-! Decoding against encoding (30_encoding.md R46 to R48, R51, R53): a decoded instruction shows its
opcode and its operand in the bytes, and the encoder writes exactly these. -/

namespace Sys2Proof

/-! ### Whole frames of format A -/

theorem decode_storeMem_window {b0 : Byte} (b1 b2 b3 b4 : Byte) (rest : List Byte)
    (h : b0.toNat % 16 = 0xC) :
    decode (b0 :: b1 :: b2 :: b3 :: b4 :: rest) =
      .instr (.storeMem (operandField (le32 b0 b1 b2 b3))) := by
  rw [decode_cons_storeMem _ h, decodeFormatA]

theorem decode_shr_window {b0 : Byte} (b1 b2 b3 b4 : Byte) (rest : List Byte)
    (h : b0.toNat % 16 = 0x1) :
    decode (b0 :: b1 :: b2 :: b3 :: b4 :: rest) =
      .instr (.shr (operandField (le32 b0 b1 b2 b3))) := by
  rw [decode_cons_shr _ h, decodeFormatA]

/-! ### The bytes an encoding begins with -/

theorem operandWindow_byte0_mod (f : Field) (op : Opcode) :
    ((operandWindow f op).extractLsb' 0 8).toNat % 16 = op.nibble.toNat := by
  rw [← lowNibble_toNat, lowNibble_operandWindow]

theorem operandField_windowBytes (f : Field) (op : Opcode) :
    operandField (le32 ((operandWindow f op).extractLsb' 0 8) ((operandWindow f op).extractLsb' 8 8)
      ((operandWindow f op).extractLsb' 16 8) ((operandWindow f op).extractLsb' 24 8)) = f := by
  rw [le32_windowBytes, operandField_operandWindow]

theorem decode_windowBytes_loadConst (imm : Field) (rest : List Byte) :
    decode (windowBytes (operandWindow imm .loadConst) ++ rest) = .instr (.loadConst imm) :=
  (decode_loadConst_window _ _ _ rest (operandWindow_byte0_mod imm .loadConst)).trans
    (by rw [operandField_windowBytes])

theorem decode_windowBytes_storeMem (addr : Field) (b4 : Byte) (rest : List Byte) :
    decode (windowBytes (operandWindow addr .storeMem) ++ b4 :: rest) = .instr (.storeMem addr) :=
  (decode_storeMem_window _ _ _ b4 rest (operandWindow_byte0_mod addr .storeMem)).trans
    (by rw [operandField_windowBytes])

theorem decode_windowBytes_shr (addr : Field) (b4 : Byte) (rest : List Byte) :
    decode (windowBytes (operandWindow addr .shr) ++ b4 :: rest) = .instr (.shr addr) :=
  (decode_shr_window _ _ _ b4 rest (operandWindow_byte0_mod addr .shr)).trans
    (by rw [operandField_windowBytes])

/-- Settles O2: the encoder's window joins to itself again, its low nibble selects the opcode and
its upper 28 bits are the operand; format A is followed by a zero byte. -/
theorem decodeEncodeRoundTrip : Obligations.DecodeEncodeRoundTrip := by
  intro i rest
  cases i with
  | loadConst imm => exact decode_windowBytes_loadConst imm rest
  | loadMem => exact decode_cons_loadMem rest (by decide)
  | storeMem addr => exact decode_windowBytes_storeMem addr 0x00#8 rest
  | shr addr => exact decode_windowBytes_shr addr 0x00#8 rest

/-! ### From the decoded instruction back to the bytes -/

/-- Joining four bytes to a window and splitting it again, 20_memory.md R28. -/
theorem windowBytes_le32 (b0 b1 b2 b3 : Byte) :
    windowBytes (le32 b0 b1 b2 b3) = [b0, b1, b2, b3] := by
  have hb0 := b0.isLt
  have hb1 := b1.isLt
  have hb2 := b2.isLt
  have hb3 := b3.isLt
  simp only [windowBytes, List.cons.injEq, and_true]
  refine ⟨?_, ?_, ?_, ?_⟩ <;>
  · apply BitVec.eq_of_toNat_eq
    rw [byteOf_toNat, le32_toNat]
    omega

/-- The encoder's window of the operand that was decoded is the window it was decoded from. -/
theorem windowBytes_operandWindow_operandField {b0 : Byte} {op : Opcode} (b1 b2 b3 : Byte)
    (h : b0.toNat % 16 = op.nibble.toNat) :
    windowBytes (operandWindow (operandField (le32 b0 b1 b2 b3)) op) = [b0, b1, b2, b3] := by
  have hw : operandWindow (operandField (le32 b0 b1 b2 b3)) op = le32 b0 b1 b2 b3 := by
    apply BitVec.eq_of_toNat_eq
    rw [operandWindow_toNat, operandField_toNat, le32_toNat, ← h]
    omega
  rw [hw, windowBytes_le32]

/-- Byte 0 shows the opcode of what was decoded, 30_encoding.md R45. -/
theorem byte0_mod_of_decode_instr {b0 : Byte} {rest : List Byte} {i : Instr}
    (h : decode (b0 :: rest) = .instr i) : b0.toNat % 16 = i.opcode.nibble.toNat := by
  by_cases hop : ∃ op : Opcode, b0.toNat % 16 = op.nibble.toNat
  · obtain ⟨op, hop⟩ := hop
    rw [((decode_cons_of_opcode op rest hop).1 i h).1, hop]
  · rw [decode_cons_illegal rest (not_exists.1 hop)] at h
    cases h

/-- What an instruction was decoded from: a frame of its format, its opcode in byte 0 and its
operand in the window of the first four. -/
theorem decode_instr_frame {bs : List Byte} {i : Instr} (h : decode bs = .instr i) :
    match i with
    | .loadConst imm => ∃ b0 b1 b2 b3 rest, bs = b0 :: b1 :: b2 :: b3 :: rest ∧
        b0.toNat % 16 = Opcode.loadConst.nibble.toNat ∧ imm = operandField (le32 b0 b1 b2 b3)
    | .loadMem => ∃ b0 rest, bs = b0 :: rest ∧ b0.toNat % 16 = Opcode.loadMem.nibble.toNat
    | .storeMem addr => ∃ b0 b1 b2 b3 b4 rest, bs = b0 :: b1 :: b2 :: b3 :: b4 :: rest ∧
        b0.toNat % 16 = Opcode.storeMem.nibble.toNat ∧ addr = operandField (le32 b0 b1 b2 b3)
    | .shr addr => ∃ b0 b1 b2 b3 b4 rest, bs = b0 :: b1 :: b2 :: b3 :: b4 :: rest ∧
        b0.toNat % 16 = Opcode.shr.nibble.toNat ∧ addr = operandField (le32 b0 b1 b2 b3) := by
  have hlen : i.width ≤ bs.length := decode_instr_width h
  cases i with
  | loadConst imm =>
    match bs, hlen with
    | b0 :: b1 :: b2 :: b3 :: rest, _ =>
      have h0 := byte0_mod_of_decode_instr h
      rw [decode_loadConst_window b1 b2 b3 rest h0] at h
      cases h
      exact ⟨b0, b1, b2, b3, rest, rfl, h0, rfl⟩
  | loadMem =>
    match bs, hlen with
    | b0 :: rest, _ => exact ⟨b0, rest, rfl, byte0_mod_of_decode_instr h⟩
  | storeMem addr =>
    match bs, hlen with
    | b0 :: b1 :: b2 :: b3 :: b4 :: rest, _ =>
      have h0 := byte0_mod_of_decode_instr h
      rw [decode_storeMem_window b1 b2 b3 b4 rest h0] at h
      cases h
      exact ⟨b0, b1, b2, b3, b4, rest, rfl, h0, rfl⟩
  | shr addr =>
    match bs, hlen with
    | b0 :: b1 :: b2 :: b3 :: b4 :: rest, _ =>
      have h0 := byte0_mod_of_decode_instr h
      rw [decode_shr_window b1 b2 b3 b4 rest h0] at h
      cases h
      exact ⟨b0, b1, b2, b3, b4, rest, rfl, h0, rfl⟩

/-- Settles O3: forward, the frame an instruction was decoded from is its encoding in all bits but
the free ones; backward, the same frame decodes whatever the free bits hold. -/
theorem decodedExactlyFromItsEncodings : Obligations.DecodedExactlyFromItsEncodings := by
  intro bs i
  refine ⟨fun h => ?forward, fun h => ?backward⟩
  case forward =>
    have hframe := decode_instr_frame h
    cases i with
    | loadConst imm =>
      obtain ⟨b0, b1, b2, b3, rest, rfl, h0, rfl⟩ := hframe
      refine ⟨rest, ?_⟩
      rw [encode, windowBytes_operandWindow_operandField b1 b2 b3 h0]
      rfl
    | loadMem => exact hframe
    | storeMem addr =>
      obtain ⟨b0, b1, b2, b3, b4, rest, rfl, h0, rfl⟩ := hframe
      refine ⟨b4, rest, ?_⟩
      rw [encode, windowBytes_operandWindow_operandField b1 b2 b3 h0]
      rfl
    | shr addr =>
      obtain ⟨b0, b1, b2, b3, b4, rest, rfl, h0, rfl⟩ := hframe
      refine ⟨b4, rest, ?_⟩
      rw [encode, windowBytes_operandWindow_operandField b1 b2 b3 h0]
      rfl
  case backward =>
    cases i with
    | loadConst imm =>
      obtain ⟨rest, rfl⟩ := h
      exact decode_windowBytes_loadConst imm rest
    | loadMem =>
      obtain ⟨b0, rest, rfl, h0⟩ := h
      exact decode_cons_loadMem rest h0
    | storeMem addr =>
      obtain ⟨b4, rest, rfl⟩ := h
      exact decode_windowBytes_storeMem addr b4 rest
    | shr addr =>
      obtain ⟨b4, rest, rfl⟩ := h
      exact decode_windowBytes_shr addr b4 rest

/-! ### The address of format A -/

/-- Settles O6: the address is the window's operand field, and the fifth byte is not read. -/
theorem addressIsWindowShiftedByFour : Obligations.AddressIsWindowShiftedByFour := by
  intro b0 b1 b2 b3 b4 rest
  have hsum := operandField_le32_toNat b0 b1 b2 b3
  exact ⟨fun h => ⟨_, decode_storeMem_window b1 b2 b3 b4 rest h, hsum⟩,
    fun h => ⟨_, decode_shr_window b1 b2 b3 b4 rest h, hsum⟩⟩

/-- Settles O1: the decoder evaluated on each sample. -/
theorem sampleWordsDecode : Obligations.SampleWordsDecode := by
  unfold Obligations.SampleWordsDecode
  decide

end Sys2Proof

namespace Sys2Proof.Machine

/-- Byte 2 or byte 3 not zero puts the address at 4096 or more, 30_encoding.md R53. -/
theorem operandField_ge_of_high_bytes (b0 b1 : Byte) {b2 b3 : Byte}
    (h : b2 ≠ 0x00#8 ∨ b3 ≠ 0x00#8) : 4096 ≤ (operandField (le32 b0 b1 b2 b3)).toNat := by
  have hpos : 0 < b2.toNat ∨ 0 < b3.toNat := by
    refine h.imp ?_ ?_ <;>
    · intro hne
      exact Nat.pos_of_ne_zero fun e => hne (BitVec.eq_of_toNat_eq e)
  rw [operandField_le32_toNat]
  omega

/-- A decoded instruction whose cell index is 1024 or more ends its step in `BoundsError`, R98. -/
theorem step_boundsError {s : State} {i : Instr} {index : Nat} (hf : s.fault = none)
    (hfetch : fetch s = .instr i) (hindex : cellIndex s i = some index)
    (hge : Config.memCells ≤ index) : step s = .next (s.raise .boundsError index) :=
  (step_of_fetch_instr hf hfetch).trans (exec_of_cellIndex_out_of_range hindex hge)

theorem fetch_storeMem_window {s : State} {b0 b1 b2 b3 b4 : Byte} {rest : List Byte}
    (hrem : s.remaining = b0 :: b1 :: b2 :: b3 :: b4 :: rest) (h : b0.toNat % 16 = 0xC) :
    fetch s = .instr (.storeMem (operandField (le32 b0 b1 b2 b3))) := by
  rw [fetch, hrem, decode_storeMem_window b1 b2 b3 b4 rest h]

theorem fetch_shr_window {s : State} {b0 b1 b2 b3 b4 : Byte} {rest : List Byte}
    (hrem : s.remaining = b0 :: b1 :: b2 :: b3 :: b4 :: rest) (h : b0.toNat % 16 = 0x1) :
    fetch s = .instr (.shr (operandField (le32 b0 b1 b2 b3))) := by
  rw [fetch, hrem, decode_shr_window b1 b2 b3 b4 rest h]

/-- Settles O7: the address decoded is at least 4096, so the instruction's cell index is out of
range. -/
theorem nonzeroHighAddressBytesAlwaysFault : Obligations.NonzeroHighAddressBytesAlwaysFault := by
  intro s b0 b1 b2 b3 b4 rest hf hrem hop hhigh
  have hge : 4096 ≤ (operandField (le32 b0 b1 b2 b3)).toNat :=
    operandField_ge_of_high_bytes b0 b1 hhigh
  have hcells : Config.memCells ≤ (operandField (le32 b0 b1 b2 b3)).toNat :=
    le_trans (by decide) hge
  refine ⟨_, hge, operandField_le32_toNat b0 b1 b2 b3, ?_⟩
  rcases hop with h | h
  · exact step_boundsError hf (fetch_storeMem_window hrem h) rfl hcells
  · exact step_boundsError hf (fetch_shr_window hrem h) rfl hcells

end Sys2Proof.Machine
end

section
/-! What the core reads of the assembler's output: a line's bytes are the encoding of the
instruction the line stands for (30_encoding.md R56 to R58), so that cutting an assembled stream by
its nibbles gives the lines back (40_fetch_decode.md R70). -/

namespace Sys2Proof

/-- A window byte by byte: the operand's low four bits beside the opcode, then its bits from 4
up. -/
theorem windowBytes_operandWindow (f : Field) (op : Opcode) :
    windowBytes (operandWindow f op) =
      [BitVec.ofNat 8 (16 * (f.toNat % 16) + op.nibble.toNat), BitVec.ofNat 8 (f.toNat / 2 ^ 4),
        BitVec.ofNat 8 (f.toNat / 2 ^ 12), BitVec.ofNat 8 (f.toNat / 2 ^ 20)] := by
  have hf := f.isLt
  have hop := op.nibble.isLt
  simp only [windowBytes, List.cons.injEq, and_true]
  refine ⟨?_, ?_, ?_, ?_⟩ <;>
  · apply BitVec.eq_of_toNat_eq
    rw [byteOf_toNat, operandWindow_toNat, BitVec.toNat_ofNat]
    omega

namespace Assembler

/-! ### A line's bytes are an encoding -/

theorem constantBytes_eq_encode (v : Nat) :
    constantBytes v = encode (.loadConst (BitVec.ofNat 28 v)) := by
  have hcut : (BitVec.ofNat 28 v).toNat = v % 2 ^ 28 := BitVec.toNat_ofNat v 28
  have hmod : v % 2 ^ 28 = v % 2 ^ 28 % 2 ^ 28 := (Nat.mod_mod v _).symm
  rw [encode, windowBytes_operandWindow, hcut, constantBytes_congr hmod, constantBytes_eq]
  rfl

/-- Bits 11:4 of the operand fill byte 1, and bytes 2 and 3 are zero, as the Encoder's big-endian
field leaves them, 30_encoding.md R58. -/
theorem addressBytes_eq_window (op : Opcode) (a : Nat) :
    addressBytes op a =
      windowBytes (operandWindow (BitVec.ofNat 28 (a % 4096)) op) ++ [0x00#8] := by
  have hcut : (BitVec.ofNat 28 (a % 4096)).toNat = a % 4096 := by
    rw [BitVec.toNat_ofNat]
    omega
  have hmod : a % 4096 = a % 4096 % 4096 := (Nat.mod_mod a _).symm
  rw [windowBytes_operandWindow, hcut, addressBytes_congr op hmod, addressBytes_eq,
    show a % 4096 / 2 ^ 12 = 0 by omega, show a % 4096 / 2 ^ 20 = 0 by omega]
  rfl

theorem Line.bytes_eq_encode_meant (line : Line) : line.bytes = encode line.meant := by
  cases line with
  | loadConst v => exact constantBytes_eq_encode v
  | loadMem => rfl
  | storeMem a => exact addressBytes_eq_window .storeMem a
  | shr a => exact addressBytes_eq_window .shr a

/-- Settles O46: the line's bytes are the encoding of what it means, which decodes to it. -/
theorem assembledLineDecodesToWhatItMeans : Obligations.AssembledLineDecodesToWhatItMeans := by
  intro line rest
  rw [line.bytes_eq_encode_meant]
  exact decodeEncodeRoundTrip line.meant rest

end Assembler

/-! ### Cutting a stream -/

theorem encode_length (i : Instr) : (encode i).length = i.width := by
  cases i with
  | loadConst imm => exact (Laws.EncodeShape.loadConst imm).1
  | loadMem => exact Laws.EncodeShape.loadMem.1
  | storeMem addr => exact (Laws.EncodeShape.storeMem addr).1
  | shr addr => exact (Laws.EncodeShape.shr addr).1

theorem sweepAfter_eq_sweep_drop (skip : Nat) (bs : List Byte) :
    sweepAfter skip bs = sweep (bs.drop skip) := by
  induction bs generalizing skip with
  | nil => rw [List.drop_nil, sweep, sweepAfter, sweepAfter]
  | cons b bs ih =>
    cases skip with
    | zero => rfl
    | succ k => rw [List.drop_succ_cons, ← ih k, sweepAfter]

/-- One cut, 40_fetch_decode.md R70: the instruction at the head, then the stream after its
width. -/
theorem sweep_of_decode_instr {bs : List Byte} {i : Instr} (h : decode bs = .instr i) :
    sweep bs =
      { instrs := i :: (sweep (bs.drop i.width)).instrs
        stop := (sweep (bs.drop i.width)).stop } := by
  cases bs with
  | nil => cases h
  | cons b bs =>
    obtain ⟨w, hw⟩ : ∃ w, i.width = w + 1 := Nat.exists_eq_add_one.2 i.width_pos
    rw [sweep, sweepAfter, h, hw, List.drop_succ_cons, ← sweepAfter_eq_sweep_drop]
    simp only [hw, Nat.add_sub_cancel]

/-- A stream that begins with an encoding is cut there. -/
theorem sweep_encode_append (i : Instr) (rest : List Byte) :
    sweep (encode i ++ rest) =
      { instrs := i :: (sweep rest).instrs, stop := (sweep rest).stop } := by
  rw [sweep_of_decode_instr (decodeEncodeRoundTrip i rest), ← encode_length, List.drop_left]

/-- Settles O47: induction on the lines, each cut off as the encoding of what it means. -/
theorem assembledStreamSweepsToItsLines : Obligations.AssembledStreamSweepsToItsLines := by
  intro lines
  induction lines with
  | nil => rfl
  | cons line lines ih =>
    have hemit : Assembler.emit (line :: lines) = encode line.meant ++ Assembler.emit lines := by
      rw [Assembler.emit, List.flatMap_cons, line.bytes_eq_encode_meant, Assembler.emit]
    rw [hemit, sweep_encode_append, ih, List.map_cons]

end Sys2Proof
end

section
/-! What is left of the stream after a step, and what a soundly cut stream can still do wrong
(40_fetch_decode.md R70, 70_reset_and_hazards.md R126). -/

namespace Sys2Proof

/-- A soundly cut stream that is not at its end begins with a whole instruction whose address names
a cell, and is soundly cut after it. -/
theorem statSound_head {bs : List Byte} (hne : bs ≠ []) (h : statSound bs = true) :
    ∃ i, decode bs = .instr i ∧ i.inBounds = true ∧ statSound (bs.drop i.width) = true := by
  cases hd : decode bs with
  | instr i =>
    refine ⟨i, rfl, ?_⟩
    simp only [statSound, sweep_of_decode_instr hd, List.all_cons, Bool.and_eq_true] at h ⊢
    obtain ⟨hstop, hhead, htail⟩ := h
    exact ⟨hhead, hstop, htail⟩
  | unknownOpcode _ | truncated _ =>
    obtain ⟨b, bs, rfl⟩ := List.exists_cons_of_ne_nil hne
    simp [statSound, sweep, sweepAfter, hd] at h
  | endOfStream =>
    obtain ⟨b, bs, rfl⟩ := List.exists_cons_of_ne_nil hne
    exact absurd hd (decode_cons_ne_endOfStream b bs)

end Sys2Proof

namespace Sys2Proof.Machine

theorem remaining_length (s : State) : s.remaining.length = s.len - s.pc :=
  List.length_drop

theorem remaining_ne_nil {s : State} (h : s.pc < s.len) : s.remaining ≠ [] :=
  fun e => by have := remaining_length s; rw [e, List.length_nil] at this; omega

/-- A step without a fault uses up the bytes of its instruction, 40_fetch_decode.md R69. -/
theorem remaining_of_step {s t : State} {i : Instr} (h : step s = .next t)
    (hfetch : fetch s = .instr i) (ht : t.fault = none) :
    t.remaining = s.remaining.drop i.width := by
  rcases step_pc_cases h with ⟨_, j, hj, hpc⟩ | ⟨hsome, _⟩
  · cases hfetch.symm.trans hj
    rw [State.remaining, State.remaining, List.drop_drop, step_prog h, hpc]
  · exact absurd ht hsome

/-- An address in bounds leaves LOAD_MEM as the one instruction whose cell index can be out of
range. -/
theorem eq_loadMem_of_inBounds {s : State} {i : Instr} {index : Nat} (hin : i.inBounds = true)
    (hindex : cellIndex s i = some index) (hge : Config.memCells ≤ index) :
    i = .loadMem ∧ index = s.acc.toNat := by
  rcases (cellIndex_eq_some_iff s i index).1 hindex with h | ⟨addr, rfl | rfl, rfl⟩
  · exact h
  · exact absurd (of_decide_eq_true hin) hge.not_gt
  · exact absurd (of_decide_eq_true hin) hge.not_gt

/-- Settles O40: the step runs the head of the soundly cut stream; if that completes, the tail is
what is left, and if its cell index is out of range, it is a LOAD_MEM. -/
theorem soundStreamFailsOnlyInLoadMem : Obligations.SoundStreamFailsOnlyInLoadMem := by
  intro s t hf hsound h
  have hrun : s.Running := running_of_step_next h
  obtain ⟨i, hfetch, hin, htail⟩ := statSound_head (remaining_ne_nil hrun.2) hsound
  have hexec : exec i s = .next t := (step_of_fetch_instr hf hfetch).symm.trans h
  rcases exec_cases_of_cellIndex i s with ⟨_, u, e, hu⟩ | ⟨index, hindex, hge, e⟩
  · cases hexec.symm.trans e
    have ht : t.fault = none := hu.trans hf
    refine .inl ⟨ht, ?_⟩
    rwa [Safety.restSound, remaining_of_step h hfetch ht]
  · cases hexec.symm.trans e
    obtain ⟨rfl, rfl⟩ := eq_loadMem_of_inBounds hin hindex hge
    exact .inr ⟨hfetch, hge, rfl⟩

end Sys2Proof.Machine
end

section
/-! The arithmetic of the shift (43_shift.md R85, R86) and what it makes of SHR on the machine. -/

namespace Sys2Proof.Machine

/-! ### The operation -/

/-- The shift as a division, 43_shift.md R85 (decision D4, log entry 3). -/
theorem shiftRight_toNat (a : Word) (n : Nat) : (shiftRight a n).toNat = a.toNat / 2 ^ n := by
  rw [shiftRight, BitVec.toNat_ushiftRight, Nat.shiftRight_eq_div_pow]

/-- Saturation: the amount is not reduced, so from the width on nothing is left. -/
theorem shiftRight_of_width_le (a : Word) {n : Nat} (h : 32 ≤ n) : shiftRight a n = 0#32 := by
  have hlt : a.toNat < 2 ^ n := a.isLt.trans_le (Nat.pow_le_pow_right (by decide) h)
  apply BitVec.eq_of_toNat_eq
  rw [shiftRight_toNat, Nat.div_eq_of_lt hlt]
  rfl

theorem shiftRight_toNat_lt {a : Word} {n : Nat} (ha : a ≠ 0#32) (hn : 0 < n) :
    (shiftRight a n).toNat < a.toNat := by
  have hpos : 0 < a.toNat := Nat.pos_of_ne_zero fun e => ha (BitVec.eq_of_toNat_eq e)
  rw [shiftRight_toNat]
  exact Nat.div_lt_self hpos (Nat.one_lt_two_pow hn.ne')

theorem shiftRight_getLsbD (a : Word) (n i : Nat) :
    (shiftRight a n).getLsbD i = if i + n ≤ 31 then a.getLsbD (i + n) else false := by
  rw [shiftRight, BitVec.getLsbD_ushiftRight, Nat.add_comm n i]
  split
  · rfl
  · exact BitVec.getLsbD_of_ge a _ (by omega)

/-- Settles O32: each law from the shift as a division or from its bits. -/
theorem shiftLaws : Obligations.ShiftLaws := by
  intro a m n
  refine ⟨shiftRight_toNat a n, BitVec.ushiftRight_zero a, BitVec.zero_ushiftRight,
    shiftRight_of_width_le a, ?lower, shiftRight_toNat_lt, ?composition, shiftRight_getLsbD a n⟩
  case lower => exact shiftRight_toNat a n ▸ Nat.div_le_self _ _
  case composition => exact (BitVec.shiftRight_add a m n).symm

end Sys2Proof.Machine
end

section
/-! The machine's invariant (10_state.md R15, R19, R24; log entry 12): every part of `Safety.Inv` is
kept by a step for its own reason. -/

namespace Sys2Proof.Machine

/-- Every step from within the stream stays within it: an instruction was decoded from whole bytes,
10_state.md R24. -/
theorem step_pc_le_len {s t : State} (h : step s = .next t) : t.pc ≤ t.len := by
  obtain ⟨-, hpc⟩ : s.Running := running_of_step_next h
  have hlen : t.len = s.len := congrArg List.length (step_prog h)
  rcases step_pc_cases h with ⟨_, i, hi, e⟩ | ⟨_, e⟩
  · have hwidth : i.width ≤ s.len - s.pc := remaining_length s ▸ decode_instr_width hi
    omega
  · omega

theorem step_mem_wf {s t : State} (hwf : s.mem.wf = true) (h : step s = .next t) :
    t.mem.wf = true := by
  rcases step_next_effects h with ⟨_, _, _, _, rfl⟩ | ⟨_, _, hlt, rfl⟩ | ⟨_, _, rfl⟩
  · exact hwf
  · exact Memory.wf_write s.acc hlt hwf
  · exact hwf

/-- What a cell reads was listed for it, or is what an unlisted cell holds. -/
theorem Memory.read_cases (i : Nat) (m : Memory) :
    (i, m.read i) ∈ m ∨ m.read i = Memory.unlisted := by
  induction m with
  | nil => exact .inr rfl
  | cons c m ih =>
    obtain ⟨a, v⟩ := c
    rw [Memory.read_cons]
    split
    · rename_i ha
      exact .inl (by simp [ha])
    · exact ih.imp_left (List.mem_cons_of_mem _)

end Sys2Proof.Machine

namespace Sys2Proof.Safety

open Sys2Proof.Machine

/-! ### Values below `2^28`, 10_state.md R15 -/

theorem inRange_iff (s : State) :
    inRange s = true ↔ s.acc.toNat < 2 ^ 28 ∧ ∀ c ∈ s.mem, c.2.toNat < 2 ^ 28 := by
  simp [inRange]

theorem read_lt_of_inRange {s : State} (h : inRange s = true) (i : Nat) :
    (s.mem.read i).toNat < 2 ^ 28 := by
  rcases Memory.read_cases i s.mem with hmem | e
  · exact ((inRange_iff s).1 h).2 _ hmem
  · rw [e]
    decide

theorem exec_inRange {i : Instr} {s t : State} (h : inRange s = true) (hx : exec i s = .next t) :
    inRange t = true := by
  obtain ⟨hacc, hmem⟩ := (inRange_iff s).1 h
  rw [inRange_iff]
  cases i with
  | loadConst imm =>
    cases hx
    exact ⟨by simpa [immediate_toNat] using imm.isLt, hmem⟩
  | loadMem =>
    rcases execLoadMem_cases s with ⟨_, e⟩ | ⟨_, e⟩ <;> cases hx.symm.trans e
    · exact ⟨read_lt_of_inRange h _, hmem⟩
    · exact ⟨hacc, hmem⟩
  | storeMem addr =>
    rcases execStoreMem_cases addr s with ⟨_, e⟩ | ⟨_, e⟩ <;> cases hx.symm.trans e
    · refine ⟨hacc, fun c hc => ?_⟩
      rcases Memory.mem_write hc with rfl | hold
      · exact hacc
      · exact hmem c hold
    · exact ⟨hacc, hmem⟩
  | shr addr =>
    rcases execShr_cases addr s with ⟨_, e⟩ | ⟨_, e⟩ <;> cases hx.symm.trans e
    · refine ⟨?_, hmem⟩
      rw [State.advance_acc, State.setAcc_acc, shiftRight_toNat]
      exact lt_of_le_of_lt (Nat.div_le_self _ _) hacc
    · exact ⟨hacc, hmem⟩

theorem step_inRange {s t : State} (h : inRange s = true) (hstep : step s = .next t) :
    inRange t = true := by
  obtain ⟨-, ⟨i, _, hx⟩ | ⟨_, _, rfl⟩ | ⟨_, _, rfl⟩⟩ := step_next_cases hstep
  · exact exec_inRange h hx
  · exact h
  · exact h

/-! ### The fault record, 10_state.md R19 -/

theorem faultTrue_of_none {s : State} (h : s.fault = none) : faultTrue s = true := by
  rw [faultTrue, h]

/-- Raising a fault changes neither `pc` nor the program, so the record may be checked against the
fetch before it. -/
theorem fetch_raise (s : State) (cause : FaultCause) (info : Nat) :
    fetch (s.raise cause info) = fetch s :=
  fetch_congr rfl rfl

theorem faultTrue_raise_unknownOpcode {s : State} {nibble : Nibble} (hpc : s.pc < s.len)
    (h : fetch s = .unknownOpcode nibble) :
    faultTrue (s.raise .unknownOpcode nibble.toNat) = true := by
  simp [faultTrue, recordTrue, fetch_raise, h, hpc]

theorem faultTrue_raise_truncated {s : State} {len : Nat} (hpc : s.pc < s.len)
    (h : fetch s = .truncated len) : faultTrue (s.raise .truncatedInstruction len) = true := by
  simp [faultTrue, recordTrue, fetch_raise, h, hpc]

theorem faultTrue_raise_boundsError {s : State} {i : Instr} {index : Nat} (hpc : s.pc < s.len)
    (h : fetch s = .instr i) (hindex : cellIndex s i = some index)
    (hge : Config.memCells ≤ index) : faultTrue (s.raise .boundsError index) = true := by
  cases i with
  | loadConst imm => cases hindex
  | loadMem | storeMem addr | shr addr =>
    cases hindex
    simpa [faultTrue, recordTrue, fetch_raise, h, hpc, indirectIndex, absoluteIndex] using hge

theorem step_faultTrue {s t : State} (h : step s = .next t) : faultTrue t = true := by
  obtain ⟨hf, hpc⟩ : s.Running := running_of_step_next h
  obtain ⟨-, ⟨i, hi, hx⟩ | ⟨_, hn, rfl⟩ | ⟨_, hl, rfl⟩⟩ := step_next_cases h
  · rcases exec_cases_of_cellIndex i s with ⟨_, u, e, hu⟩ | ⟨index, hindex, hge, e⟩ <;>
      cases hx.symm.trans e
    · exact faultTrue_of_none (hu.trans hf)
    · exact faultTrue_raise_boundsError hpc hi hindex hge
  · exact faultTrue_raise_unknownOpcode hpc hn
  · exact faultTrue_raise_truncated hpc hl

/-- Settles O34: the four parts of the invariant, each kept by its own lemma. -/
theorem stepKeepsMachineInvariant : Obligations.StepKeepsMachineInvariant := by
  intro s t ⟨hwf, hrange, _, _⟩ h
  exact ⟨step_mem_wf hwf h, step_inRange hrange h, decide_eq_true (step_pc_le_len h),
    step_faultTrue h⟩

/-! ### Reset -/

theorem inv_boot (bs : List Byte) : Inv (boot bs) :=
  ⟨Memory.wf_nil, (inRange_iff _).2 ⟨by rw [boot_acc]; decide, nofun⟩,
    decide_eq_true (Nat.zero_le _), faultTrue_of_none rfl⟩

/-- Settles O35: `State.reset` is `boot` of the empty program. -/
theorem resetMeetsMachineInvariant : Obligations.ResetMeetsMachineInvariant :=
  ⟨inv_boot [], inv_boot⟩

end Sys2Proof.Safety

namespace Sys2Proof.Machine

/-- Settles O36: the fields of the reset state; the empty memory reads 0 everywhere. -/
theorem resetValues : Obligations.ResetValues :=
  ⟨State.reset_pc, State.reset_acc, fun i => Memory.read_nil i, State.reset_fault, fun _ => rfl⟩

end Sys2Proof.Machine
end

section
/-! The four instructions where they complete, with their frames (41_load.md R75, R76, 42_store.md
R80, 43_shift.md R85), and what follows for two of them in a row. -/

namespace Sys2Proof.Machine

/-! ### Completion -/

theorem exec_loadMem_of_lt {s : State} (h : s.acc.toNat < Config.memCells) :
    exec .loadMem s = .next ((s.setAcc (s.mem.read s.acc.toNat)).advance 1) := by
  rcases execLoadMem_cases s with ⟨_, e⟩ | ⟨hge, _⟩
  · exact e
  · exact absurd h hge.not_gt

theorem exec_storeMem_of_lt {addr : Field} (s : State) (h : addr.toNat < Config.memCells) :
    exec (.storeMem addr) s =
      .next ((s.setMem (s.mem.write addr.toNat s.acc)).advance 5) := by
  rcases execStoreMem_cases addr s with ⟨_, e⟩ | ⟨hge, _⟩
  · exact e
  · exact absurd h hge.not_gt

theorem exec_shr_of_lt {addr : Field} (s : State) (h : addr.toNat < Config.memCells) :
    exec (.shr addr) s =
      .next ((s.setAcc (shiftRight s.acc (s.mem.read addr.toNat).toNat)).advance 5) := by
  rcases execShr_cases addr s with ⟨_, e⟩ | ⟨hge, _⟩
  · exact e
  · exact absurd h hge.not_gt

theorem Memory.read_write_same (i : Nat) (v : Word) (m : Memory) :
    Memory.read i (Memory.write i v m) = v := by
  rw [Memory.read_write, if_pos rfl]

theorem Memory.read_write_other {i j : Nat} (v : Word) (m : Memory) (h : j ≠ i) :
    Memory.read j (Memory.write i v m) = Memory.read j m := by
  rw [Memory.read_write, if_neg h]

/-- Settles O12: zero extension keeps the immediate's number, and no other field is written. -/
theorem loadConstCompletes : Obligations.LoadConstCompletes := by
  intro imm s
  have himm : immediate imm = BitVec.ofNat 32 imm.toNat :=
    BitVec.eq_of_toNat_eq (by rw [immediate_toNat, BitVec.toNat_ofNat]; omega)
  rw [exec_loadConst, himm]
  rfl

/-- Settles O13: the in-bounds case of LOAD_MEM. -/
theorem loadMemCompletesInBounds : Obligations.LoadMemCompletesInBounds :=
  fun _ h => exec_loadMem_of_lt h

/-- Settles O14: the in-bounds case of STORE_MEM, and reading back what was written. -/
theorem storeMemCompletesInBounds : Obligations.StoreMemCompletesInBounds :=
  fun _ s h => ⟨_, exec_storeMem_of_lt s h, Memory.read_write_same _ _ _,
    fun _ hj => Memory.read_write_other _ _ hj, rfl, rfl, rfl, rfl⟩

/-- Settles O15: the in-bounds case of SHR, its shift as a division. -/
theorem shrCompletesInBounds : Obligations.ShrCompletesInBounds :=
  fun _ s h => ⟨_, exec_shr_of_lt s h, shiftRight_toNat _ _⟩

/-- Settles O16: of the three things `exec` can answer, only a completed STORE_MEM writes memory,
and that one keeps the accumulator. -/
theorem onlyStoreMemWritesMemory : Obligations.OnlyStoreMemWritesMemory := by
  intro i s t h
  rcases exec_next_cases h with ⟨_, hne, rfl⟩ | ⟨addr, rfl, hlt, rfl⟩ | ⟨_, _, rfl⟩
  · exact ⟨fun ⟨_, hj⟩ => absurd rfl hj, fun _ => hne⟩
  · exact ⟨fun _ => ⟨addr, rfl, hlt, fun _ hj => Memory.read_write_other _ _ hj⟩,
      fun hacc => absurd rfl hacc⟩
  · exact ⟨fun ⟨_, hj⟩ => absurd rfl hj, fun hacc => absurd rfl hacc⟩

/-! ### Two instructions in a row -/

/-- Settles O11: the store's cell reads back the accumulator, for LOAD_MEM at once and for SHR also
after a LOAD_CONST, which leaves memory as it is. -/
theorem loadAndShiftSeeTheStoreBefore : Obligations.LoadAndShiftSeeTheStoreBefore := by
  intro s addr constant haddr
  refine ⟨_, exec_storeMem_of_lt s haddr, fun hacc => ?load,
    _, _, exec_loadConst constant _, exec_shr_of_lt _ haddr, ?shift⟩
  case load =>
    refine ⟨_, exec_loadMem_of_lt (hacc ▸ haddr), ?_⟩
    simp [hacc, Memory.read_write_same]
  case shift =>
    simp [shiftRight_toNat, immediate_toNat, Memory.read_write_same]

/-- Settles O33: the first SHR leaves memory as it is, and dividing twice is dividing by the
product. -/
theorem twoShiftsComposeToTheSum : Obligations.TwoShiftsComposeToTheSum := by
  intro s a b ha hb
  refine ⟨_, _, exec_shr_of_lt s ha, exec_shr_of_lt _ hb, ?_⟩
  simp [shiftRight_toNat, Nat.div_div_eq_div_mul, Nat.pow_add]

end Sys2Proof.Machine
end

section
/-! The whole step from the bytes at `pc`: overruns of the stream (60_exceptions.md R97), then
LOAD_CONST, STORE_MEM and SHR with their faults (41_load.md R75, 42_store.md R80, 43_shift.md
R85). -/

namespace Sys2Proof.Machine

/-- Settles O17: a fetch is the decoding of the bytes from `pc` on. -/
theorem stepRunsTheDecodedInstruction : Obligations.StepRunsTheDecodedInstruction :=
  fun _ _ hf h => step_of_fetch_instr hf h

/-! ### Frames past the stream -/

theorem fetch_truncated_of_overrun {s : State} {b0 : Byte} {rest : List Byte} {op : Opcode}
    (hrem : s.remaining = b0 :: rest) (h : b0.toNat % 16 = op.nibble.toNat)
    (hover : s.pc + op.width > s.len) : fetch s = .truncated op.width := by
  have hlen : (b0 :: rest).length = s.len - s.pc := hrem ▸ remaining_length s
  rw [fetch, hrem]
  rcases decode_cons_cases rest h with ⟨hle, _⟩ | ⟨_, e⟩
  · rw [List.length_cons] at hle hlen
    omega
  · exact e

/-- The frame check by the full width comes before any operand is read (decisions D5 and D7). -/
theorem step_of_overrun {s : State} {b0 : Byte} {rest : List Byte} (op : Opcode)
    (hf : s.fault = none) (hrem : s.remaining = b0 :: rest)
    (h : b0.toNat % 16 = op.nibble.toNat) (hover : s.pc + op.width > s.len) :
    step s = .next (s.raise .truncatedInstruction op.width) :=
  step_of_fetch_truncated hf (fetch_truncated_of_overrun hrem h hover)

/-- Settles O23: each of the three nibbles is an opcode's, and `len` its width. -/
theorem overrunRaisesTruncatedInstruction : Obligations.OverrunRaisesTruncatedInstruction := by
  intro s b0 rest len hf hrem hop hover
  rcases hop with ⟨h, rfl⟩ | ⟨h | h, rfl⟩
  · exact step_of_overrun .loadConst hf hrem h hover
  · exact step_of_overrun .storeMem hf hrem h hover
  · exact step_of_overrun .shr hf hrem h hover

/-! ### Whole frames -/

theorem fetch_loadConst_window {s : State} {b0 b1 b2 b3 : Byte} {rest : List Byte}
    (hrem : s.remaining = b0 :: b1 :: b2 :: b3 :: rest) (h : b0.toNat % 16 = 0xD) :
    fetch s = .instr (.loadConst (operandField (le32 b0 b1 b2 b3))) := by
  rw [fetch, hrem, decode_loadConst_window b1 b2 b3 rest h]

/-- The operand as the rules of 41_load.md, 42_store.md and 43_shift.md write it, `W >> 4`. -/
theorem operandField_le32_toNat_eq_div (b0 b1 b2 b3 : Byte) :
    (operandField (le32 b0 b1 b2 b3)).toNat =
      (b0.toNat + 2 ^ 8 * b1.toNat + 2 ^ 16 * b2.toNat + 2 ^ 24 * b3.toNat) / 2 ^ 4 := by
  rw [operandField_toNat, le32_toNat]

/-- Settles O18: the overrun, and the immediate of a whole frame, which is zero-extended. -/
theorem loadConstStep : Obligations.LoadConstStep := by
  intro s b0 rest hf hrem h
  refine ⟨step_of_overrun .loadConst hf hrem h, fun b1 b2 b3 more hrest => ?_⟩
  subst hrest
  refine ⟨immediate (operandField (le32 b0 b1 b2 b3)), ?_, ?_⟩
  · rw [step_of_fetch_instr hf (fetch_loadConst_window hrem h)]
    exact exec_loadConst _ s
  · rw [immediate_toNat, operandField_le32_toNat_eq_div]

/-- Settles O20: the overrun, and the two cases of the address of a whole frame. -/
theorem storeMemStep : Obligations.StoreMemStep := by
  intro s b0 rest hf hrem h
  refine ⟨step_of_overrun .storeMem hf hrem h, fun b1 b2 b3 b4 more addr hrest haddr => ?_⟩
  subst hrest
  have hfetch := fetch_storeMem_window hrem h
  rw [← operandField_le32_toNat_eq_div] at haddr
  subst haddr
  refine ⟨fun hge => step_boundsError hf hfetch rfl hge, fun hlt => ?_⟩
  rw [step_of_fetch_instr hf hfetch]
  exact ⟨_, exec_storeMem_of_lt s hlt, Memory.read_write_same _ _ _,
    fun _ hj => Memory.read_write_other _ _ hj, rfl, rfl, hf, rfl⟩

/-- Settles O21: the overrun, and the two cases of the address of a whole frame, where the amount is
the cell's whole content. -/
theorem shrStep : Obligations.ShrStep := by
  intro s b0 rest hf hrem h
  refine ⟨step_of_overrun .shr hf hrem h, fun b1 b2 b3 b4 more addr hrest haddr => ?_⟩
  subst hrest
  have hfetch := fetch_shr_window hrem h
  rw [← operandField_le32_toNat_eq_div] at haddr
  subst haddr
  refine ⟨fun hge => step_boundsError hf hfetch rfl hge, fun hlt => ?_⟩
  rw [step_of_fetch_instr hf hfetch]
  exact ⟨_, exec_shr_of_lt s hlt, shiftRight_toNat _ _, shiftRight_of_width_le _⟩

end Sys2Proof.Machine
end

section
/-! What every step and every run respects: the fault record, the boundaries, the window read, and
the end of a run (40_fetch_decode.md R68, R70, R73, 60_exceptions.md R103, R105,
70_reset_and_hazards.md R120, R121, R125). -/

namespace Sys2Proof.Machine

/-! ### The fault record -/

/-- Settles O27: the two completing effects keep the empty fault record of a running state. -/
theorem faultingStepWritesOnlyTheRecord : Obligations.FaultingStepWritesOnlyTheRecord := by
  intro s t h hfault
  obtain ⟨hf, -⟩ : s.Running := running_of_step_next h
  rcases step_next_effects h with ⟨_, _, _, _, rfl⟩ | ⟨_, _, _, rfl⟩ | ⟨cause, info, rfl⟩
  · exact absurd hf hfault
  · exact absurd hf hfault
  · exact ⟨cause, info, rfl⟩

theorem step_of_faulted {s : State} {r : FaultRecord} (h : s.fault = some r) :
    step s = .fault (.runFaulted r) := by
  rw [step, h]

theorem readOut_of_not_done {s : State} (h : ¬ s.Done) (start stop : Nat) :
    readOut start stop s = .noResult :=
  if_neg h

/-- Settles O28: a faulted state is neither running nor done. -/
theorem faultRecordIsSticky : Obligations.FaultRecordIsSticky := by
  intro s r hr
  have hne : s.fault ≠ none := hr ▸ nofun
  exact ⟨step_of_faulted hr, runFor_of_not_running fun hrun => hne hrun.1,
    readOut_of_not_done fun hdone => hne hdone.1⟩

/-! ### Boundaries -/

/-- Settles O30: both steps fetch the same instruction and advance by its width. -/
theorem boundariesDoNotDependOnData : Obligations.BoundariesDoNotDependOnData := by
  intro s s' t t' hprog hpc h h' ht ht'
  rcases step_pc_cases h with ⟨_, i, hi, e⟩ | ⟨hne, _⟩
  · rcases step_pc_cases h' with ⟨_, i', hi', e'⟩ | ⟨hne', _⟩
    · cases hi.symm.trans ((fetch_congr hprog hpc).trans hi')
      rw [e, e', hpc]
    · exact absurd ht' hne'
  · exact absurd ht hne

/-! ### The window -/

end Sys2Proof.Machine

namespace Sys2Proof

/-- The bytes after the window count for the frame check alone, so zeros do as well,
40_fetch_decode.md R68. -/
theorem decode_eq_decode_window (bs : List Byte) :
    decode bs = decode (bs.take 4 ++ List.replicate (bs.length - 4) 0x00#8) := by
  match bs with
  | [] | [_] | [_, _] | [_, _, _] | [_, _, _, _] => simp
  | b0 :: b1 :: b2 :: b3 :: b4 :: more =>
    simp [List.replicate_succ, decode, decodeFormatK, decodeFormatA]

theorem decode_congr_window {bs bs' : List Byte} (hlen : bs.length = bs'.length)
    (hwindow : bs.take 4 = bs'.take 4) : decode bs = decode bs' := by
  rw [decode_eq_decode_window bs, decode_eq_decode_window bs', hlen, hwindow]

end Sys2Proof

namespace Sys2Proof.Machine

theorem remaining_take_eq {s s' : State} {n : Nat} (hpc : s.pc = s'.pc)
    (h : ∀ k, k < n → s.prog[s.pc + k]? = s'.prog[s.pc + k]?) :
    s.remaining.take n = s'.remaining.take n := by
  apply List.ext_getElem?
  intro k
  rw [List.getElem?_take, List.getElem?_take]
  split
  · rename_i hk
    rw [State.remaining, State.remaining, List.getElem?_drop, List.getElem?_drop, ← hpc, h k hk]
  · rfl

/-- No instruction reads or writes the program, 20_memory.md R31. -/
theorem exec_with_prog {i : Instr} {s t : State} (bs : List Byte) (h : exec i s = .next t) :
    exec i { s with prog := bs } = .next { t with prog := bs } := by
  cases i with
  | loadConst imm =>
    cases h
    rfl
  | loadMem =>
    rcases execLoadMem_cases s with ⟨hlt, e⟩ | ⟨hge, e⟩ <;> cases h.symm.trans e
    · exact exec_loadMem_of_lt (s := { s with prog := bs }) hlt
    · exact exec_of_cellIndex_out_of_range rfl hge
  | storeMem addr =>
    rcases execStoreMem_cases addr s with ⟨hlt, e⟩ | ⟨hge, e⟩ <;> cases h.symm.trans e
    · exact exec_storeMem_of_lt { s with prog := bs } hlt
    · exact exec_of_cellIndex_out_of_range rfl hge
  | shr addr =>
    rcases execShr_cases addr s with ⟨hlt, e⟩ | ⟨hge, e⟩ <;> cases h.symm.trans e
    · exact exec_shr_of_lt { s with prog := bs } hlt
    · exact exec_of_cellIndex_out_of_range rfl hge

theorem step_of_fetch_endOfStream {s : State} (hf : s.fault = none) (h : fetch s = .endOfStream) :
    step s = .fault (endStop s) := by
  simp [step, hf, h]

theorem endStop_congr {s s' : State} (hpc : s.pc = s'.pc) (hlen : s.len = s'.len) :
    endStop s = endStop s' := by
  rw [endStop, endStop, hpc, hlen]

/-- Settles O31: the two programs give the same fetch, and nothing after the fetch looks at them but
the stop at the end of the stream, which looks at the length. -/
theorem stepReadsOnlyTheWindow : Obligations.StepReadsOnlyTheWindow := by
  intro s bs hlen hwindow
  have hfetch : fetch { s with prog := bs } = fetch s := by
    refine decode_congr_window ?_ (remaining_take_eq rfl hwindow)
    rw [remaining_length, remaining_length, State.len, State.len, hlen]
  obtain hf | ⟨r, hf⟩ := Option.eq_none_or_eq_some s.fault
  · have hf' : ({ s with prog := bs } : State).fault = none := hf
    cases hd : fetch s with
    | instr i =>
      obtain ⟨t, ht⟩ := exec_eq_next i s
      rw [step_of_fetch_instr hf hd, step_of_fetch_instr hf' (hfetch.trans hd), ht,
        exec_with_prog bs ht]
    | unknownOpcode nibble =>
      rw [step_of_fetch_unknownOpcode hf hd, step_of_fetch_unknownOpcode hf' (hfetch.trans hd)]
      rfl
    | truncated len =>
      rw [step_of_fetch_truncated hf hd, step_of_fetch_truncated hf' (hfetch.trans hd)]
      rfl
    | endOfStream =>
      rw [step_of_fetch_endOfStream hf hd, step_of_fetch_endOfStream hf' (hfetch.trans hd),
        endStop_congr (s := { s with prog := bs }) (s' := s) rfl hlen]
  · rw [step_of_faulted hf, step_of_faulted (s := { s with prog := bs }) hf]

/-! ### The end of a run -/

/-- Settles O37: there is no byte to fetch at offset 0. -/
theorem emptyRunIsDoneAtOnce : Obligations.EmptyRunIsDoneAtOnce :=
  ⟨step_of_fetch_endOfStream rfl rfl, rfl, rfl, rfl⟩

theorem ended_of_not_running {s : State} (hpc : s.pc ≤ s.len) (h : ¬ s.Running) :
    Safety.Ended s := by
  by_cases hf : s.fault = none
  · exact .inl ⟨hf, hpc.antisymm (not_lt.1 fun hlt => h ⟨hf, hlt⟩)⟩
  · exact .inr hf

/-- Every step either faults, which ends the run, or leaves fewer bytes than before,
40_fetch_decode.md R70. -/
theorem runFor_ended {k : Nat} {s : State} (hpc : s.pc ≤ s.len) (hk : s.len - s.pc ≤ k) :
    Safety.Ended (runFor k s) := by
  induction k generalizing s with
  | zero =>
    have hend : ¬ s.pc < s.len := by omega
    exact ended_of_not_running hpc fun hrun => hend hrun.2
  | succ k ih =>
    by_cases hrun : s.Running
    · obtain ⟨t, ht⟩ := (exists_step_next_iff_running s).2 hrun
      rw [runFor_succ_of_next k ht]
      rcases step_pc_cases ht with ⟨_, i, _, e⟩ | ⟨hfault, _⟩
      · have hlen : t.len = s.len := congrArg List.length (step_prog ht)
        have hwidth := i.width_pos
        exact ih (step_pc_le_len ht) (by omega)
      · rw [runFor_of_not_running fun hrun' => hfault hrun'.1]
        exact .inr hfault
    · rw [runFor_of_not_running hrun]
      exact ended_of_not_running hpc hrun

/-- Settles O38: `runFor_ended` with as many steps as bytes are left; at boot that is all of
them. -/
theorem everyRunEnds : Obligations.EveryRunEnds :=
  ⟨fun _ hpc => runFor_ended hpc le_rfl, fun _ => runFor_ended (Nat.zero_le _) le_rfl⟩

/-! ### The result -/

theorem readOut_of_done {s : State} (hdone : s.Done) {start stop : Nat} (hle : start ≤ stop)
    (hcells : stop ≤ Config.memCells) :
    readOut start stop s =
      .cells ((List.range' start (stop - start)).map fun i => s.mem.read i) := by
  rw [readOut, if_pos hdone, if_pos ⟨hle, hcells⟩]

theorem readOut_of_bad_range {s : State} (hdone : s.Done) {start stop : Nat}
    (h : ¬ (start ≤ stop ∧ stop ≤ Config.memCells)) : readOut start stop s = .badRange := by
  rw [readOut, if_pos hdone, if_neg h]

/-- Settles O39: a range within bounds is read cell by cell from its start, any other is refused. -/
theorem resultIsTheCellsOfTheRange : Obligations.ResultIsTheCellsOfTheRange := by
  intro s start stop hf hpc
  have hdone : s.Done := ⟨hf, hpc⟩
  refine ⟨fun hle hcells => ⟨_, readOut_of_done hdone hle hcells, by simp, fun k hk => ?_⟩,
    fun hbad => readOut_of_bad_range hdone fun ⟨hle, hcells⟩ => ?_⟩
  · rw [List.getElem?_map, List.getElem?_range' hk, Nat.one_mul, Option.map_some]
  · exact hbad.elim hle.not_gt hcells.not_gt

end Sys2Proof.Machine
end

section
/-! The canonical form of the data memory as a normal form (20_memory.md R35; log entry 12). -/

namespace Sys2Proof.Machine

/-- A memory that is canonical from `lo` on lists no cell below `lo`. -/
theorem Memory.read_of_lt_of_wfFrom {lo i : Nat} {m : Memory} (h : Memory.wfFrom lo m = true)
    (hi : i < lo) : Memory.read i m = Memory.unlisted := by
  induction m generalizing lo with
  | nil => rfl
  | cons c m ih =>
    obtain ⟨a, v⟩ := c
    obtain ⟨hlo, _, _, hm⟩ := (Memory.wfFrom_cons lo a v m).1 h
    rw [Memory.read_cons, if_neg (by omega)]
    exact ih hm (by omega)

theorem Memory.read_cons_same (a : Nat) (v : Word) (m : Memory) :
    Memory.read a ((a, v) :: m) = v := by
  rw [Memory.read_cons, if_pos rfl]

theorem Memory.wfFrom_nil (lo : Nat) : Memory.wfFrom lo [] = true := rfl

/-- The first cell listed reads differently in a canonical memory that begins only after it. -/
theorem Memory.read_cons_ne {lo a : Nat} {v : Word} {m m' : Memory} (hv : v ≠ Memory.unlisted)
    (h : Memory.wfFrom lo m' = true) (ha : a < lo) :
    Memory.read a ((a, v) :: m) ≠ Memory.read a m' := by
  rw [Memory.read_cons_same, Memory.read_of_lt_of_wfFrom h ha]
  exact hv

/-- The first address listed is one to be canonical from. -/
theorem Memory.wfFrom_head {lo a : Nat} {v : Word} {m : Memory}
    (h : Memory.wfFrom lo ((a, v) :: m) = true) : Memory.wfFrom a ((a, v) :: m) = true := by
  obtain ⟨_, hcell, hv, hm⟩ := (Memory.wfFrom_cons lo a v m).1 h
  exact (Memory.wfFrom_cons a a v m).2 ⟨le_rfl, hcell, hv, hm⟩

theorem Memory.eq_of_read_eq {lo : Nat} {m m' : Memory} (h : Memory.wfFrom lo m = true)
    (h' : Memory.wfFrom lo m' = true) (hread : ∀ i, m.read i = m'.read i) : m = m' := by
  induction m generalizing lo m' with
  | nil =>
    cases m' with
    | nil => rfl
    | cons c' m' =>
      obtain ⟨a', v'⟩ := c'
      obtain ⟨_, _, hv', _⟩ := (Memory.wfFrom_cons lo a' v' m').1 h'
      exact absurd (hread a').symm
        (Memory.read_cons_ne hv' (Memory.wfFrom_nil _) (Nat.lt_succ_self a'))
  | cons c m ih =>
    obtain ⟨a, v⟩ := c
    obtain ⟨_, _, hv, hm⟩ := (Memory.wfFrom_cons lo a v m).1 h
    cases m' with
    | nil =>
      exact absurd (hread a) (Memory.read_cons_ne hv (Memory.wfFrom_nil _) (Nat.lt_succ_self a))
    | cons c' m' =>
      obtain ⟨a', v'⟩ := c'
      obtain ⟨_, _, hv', hm'⟩ := (Memory.wfFrom_cons lo a' v' m').1 h'
      rcases lt_trichotomy a a' with hlt | rfl | hgt
      · exact absurd (hread a) (Memory.read_cons_ne hv (Memory.wfFrom_head h') hlt)
      · have hhead : v = v' := by
          simpa only [Memory.read_cons_same] using hread a
        have htail : m = m' := ih hm hm' fun i => by
          by_cases hi : a = i
          · have hlow : i < a + 1 := by omega
            rw [Memory.read_of_lt_of_wfFrom hm hlow, Memory.read_of_lt_of_wfFrom hm' hlow]
          · simpa only [Memory.read_cons, if_neg hi] using hread i
        rw [hhead, htail]
      · exact absurd (hread a').symm (Memory.read_cons_ne hv' (Memory.wfFrom_head h) hgt)

/-- Settles O9: `Memory.eq_of_read_eq` from address 0 on. -/
theorem canonicalMemoriesWithEqualCellsAreEqual :
    Obligations.CanonicalMemoriesWithEqualCellsAreEqual :=
  fun _ _ h h' hread => Memory.eq_of_read_eq h h' hread

end Sys2Proof.Machine
end

section
/-! The machine against the pseudocode of 40_fetch_decode.md R71 in natural numbers:
`Reference.view` carries each step to a step of the reference, and so each run to a run of it. -/

namespace Sys2Proof.Reference

open Sys2Proof.Machine

/-! ### The state as numbers -/

theorem view_pc (s : State) : (view s).pc = s.pc := rfl

theorem view_fault_eq_none (s : State) : (view s).fault = none ↔ s.fault = none :=
  Option.map_eq_none_iff

theorem view_raise (s : State) (cause : FaultCause) (info : Nat) :
    view (s.raise cause info) = raise (view s) cause.number info := rfl

theorem view_setAcc_advance (s : State) (v : Word) (n : Nat) :
    view ((s.setAcc v).advance n) = { view s with acc := v.toNat, pc := s.pc + n } := rfl

theorem view_write_advance (s : State) (i : Nat) (v : Word) (n : Nat) :
    view ((s.setMem (s.mem.write i v)).advance n) =
      { view s with
        mem := fun j => if j = i then v.toNat else (view s).mem j
        pc := s.pc + n } := by
  have hmem : (fun j => ((s.mem.write i v).read j).toNat) =
      fun j => if j = i then v.toNat else (s.mem.read j).toNat := by
    funext j
    rw [Memory.read_write, apply_ite BitVec.toNat]
  simp [view, hmem]

/-! ### The bytes at `pc` as numbers -/

theorem byteAt_of_remaining {s : State} {k : Nat} {b : Byte} (h : s.remaining[k]? = some b) :
    byteAt s.prog (s.pc + k) = b.toNat := by
  rw [State.remaining, List.getElem?_drop] at h
  rw [byteAt, List.getD_eq_getElem?_getD, h, Option.getD_some]

theorem byteAt_pc_of_remaining {s : State} {b0 : Byte} {rest : List Byte}
    (h : s.remaining = b0 :: rest) : byteAt s.prog s.pc = b0.toNat :=
  byteAt_of_remaining (k := 0) (by rw [h]; rfl)

theorem operandAt_of_remaining {s : State} {b0 b1 b2 b3 : Byte} {rest : List Byte}
    (h : s.remaining = b0 :: b1 :: b2 :: b3 :: rest) :
    operandAt s.prog s.pc = (operandField (le32 b0 b1 b2 b3)).toNat := by
  have h1 : byteAt s.prog (s.pc + 1) = b1.toNat := byteAt_of_remaining (by rw [h]; rfl)
  have h2 : byteAt s.prog (s.pc + 2) = b2.toNat := byteAt_of_remaining (by rw [h]; rfl)
  have h3 : byteAt s.prog (s.pc + 3) = b3.toNat := byteAt_of_remaining (by rw [h]; rfl)
  rw [operandAt, byteAt_pc_of_remaining h, h1, h2, h3, operandField_le32_toNat_eq_div]

theorem widthOf_nibble (op : Opcode) : widthOf op.nibble.toNat = some op.width := by
  cases op <;> rfl

theorem widthOf_eq_none {n : Nat} (h : ∀ op : Opcode, n ≠ op.nibble.toNat) : widthOf n = none :=
  (if_neg (h .loadConst)).trans <| (if_neg (h .loadMem)).trans <|
    (if_neg (h .storeMem)).trans (if_neg (h .shr))

/-! ### The reference step, case by case -/

theorem refStep_illegal {prog : List Byte} {r : RefState}
    (h : ∀ op : Opcode, byteAt prog r.pc % 16 ≠ op.nibble.toNat) :
    refStep prog r = raise r 1 (byteAt prog r.pc % 16) := by
  simp only [refStep, widthOf_eq_none h]

theorem refStep_overrun {prog : List Byte} {r : RefState} {op : Opcode}
    (h : byteAt prog r.pc % 16 = op.nibble.toNat) (hover : r.pc + op.width > prog.length) :
    refStep prog r = raise r 2 op.width := by
  simp only [refStep, h, widthOf_nibble, if_pos hover]

theorem refStep_completes {prog : List Byte} {r r' : RefState} {op : Opcode} {n : Nat}
    (h : byteAt prog r.pc % 16 = op.nibble.toNat) (hfit : r.pc + op.width ≤ prog.length)
    (heffect : effect op.nibble.toNat (operandAt prog r.pc) r = (some r', n)) :
    refStep prog r = { r' with pc := r'.pc + op.width } := by
  simp only [refStep, h, widthOf_nibble, if_neg hfit.not_gt, heffect]

theorem refStep_boundsError {prog : List Byte} {r : RefState} {op : Opcode} {index : Nat}
    (h : byteAt prog r.pc % 16 = op.nibble.toNat) (hfit : r.pc + op.width ≤ prog.length)
    (heffect : effect op.nibble.toNat (operandAt prog r.pc) r = (none, index)) :
    refStep prog r = raise r 3 index := by
  simp only [refStep, h, widthOf_nibble, if_neg hfit.not_gt, heffect]

/-! ### The effect of each instruction -/

theorem effect_loadConst (f : Nat) (r : RefState) :
    effect Opcode.loadConst.nibble.toNat f r = (some { r with acc := f }, 0) := rfl

theorem effect_loadMem (f : Nat) (r : RefState) :
    effect Opcode.loadMem.nibble.toNat f r =
      if r.acc < 1024 then (some { r with acc := r.mem r.acc }, 0) else (none, r.acc) := rfl

theorem effect_storeMem (f : Nat) (r : RefState) :
    effect Opcode.storeMem.nibble.toNat f r =
      if f < 1024 then (some { r with mem := fun i => if i = f then r.acc else r.mem i }, 0)
      else (none, f) := rfl

theorem effect_shr (f : Nat) (r : RefState) :
    effect Opcode.shr.nibble.toNat f r =
      if f < 1024 then (some { r with acc := r.acc / 2 ^ r.mem f }, 0) else (none, f) := rfl

/-! ### One step -/

/-- What a fetched instruction shows to the reference: its nibble, a frame that fits, and its
operand. -/
theorem reference_reads_fetched {s : State} {i : Instr} (h : fetch s = .instr i) :
    byteAt s.prog s.pc % 16 = i.opcode.nibble.toNat ∧ s.pc + i.opcode.width ≤ s.prog.length ∧
      match i with
      | .loadConst imm => operandAt s.prog s.pc = imm.toNat
      | .loadMem => True
      | .storeMem addr => operandAt s.prog s.pc = addr.toNat
      | .shr addr => operandAt s.prog s.pc = addr.toNat := by
  have hfit : s.pc + i.opcode.width ≤ s.prog.length := by
    have hwidth : i.width ≤ s.len - s.pc := remaining_length s ▸ decode_instr_width h
    have hpos := i.width_pos
    simp only [Instr.width, State.len] at hwidth hpos
    omega
  have hframe := decode_instr_frame h
  cases i with
  | loadConst imm =>
    obtain ⟨b0, b1, b2, b3, rest, hrem, h0, rfl⟩ := hframe
    exact ⟨byteAt_pc_of_remaining hrem ▸ h0, hfit, operandAt_of_remaining hrem⟩
  | loadMem =>
    obtain ⟨b0, rest, hrem, h0⟩ := hframe
    exact ⟨byteAt_pc_of_remaining hrem ▸ h0, hfit, trivial⟩
  | storeMem addr =>
    obtain ⟨b0, b1, b2, b3, b4, rest, hrem, h0, rfl⟩ := hframe
    exact ⟨byteAt_pc_of_remaining hrem ▸ h0, hfit, operandAt_of_remaining hrem⟩
  | shr addr =>
    obtain ⟨b0, b1, b2, b3, b4, rest, hrem, h0, rfl⟩ := hframe
    exact ⟨byteAt_pc_of_remaining hrem ▸ h0, hfit, operandAt_of_remaining hrem⟩

/-- The commuting square of one instruction: its case of `exec` is the same case of `effect`. -/
theorem view_exec {i : Instr} {s t : State} (hfetch : fetch s = .instr i)
    (hx : exec i s = .next t) : view t = refStep s.prog (view s) := by
  obtain ⟨hop, hfit, hoperand⟩ := reference_reads_fetched hfetch
  cases i with
  | loadConst imm =>
    cases hx
    rw [refStep_completes (r := view s) hop hfit (effect_loadConst _ _), view_pc, hoperand,
      view_setAcc_advance, immediate_toNat]
    rfl
  | loadMem =>
    rcases execLoadMem_cases s with ⟨hlt, e⟩ | ⟨hge, e⟩ <;> cases hx.symm.trans e
    · rw [refStep_completes (r := view s) hop hfit ((effect_loadMem _ _).trans (if_pos hlt))]
      rfl
    · rw [view_raise, refStep_boundsError (r := view s) hop hfit
        ((effect_loadMem _ _).trans (if_neg hge.not_gt))]
      rfl
  | storeMem addr =>
    rcases execStoreMem_cases addr s with ⟨hlt, e⟩ | ⟨hge, e⟩ <;> cases hx.symm.trans e
    · rw [refStep_completes (r := view s) hop hfit
        ((effect_storeMem _ _).trans (if_pos (hoperand ▸ hlt))), view_pc, hoperand,
        view_write_advance]
      rfl
    · rw [view_raise, refStep_boundsError (r := view s) hop hfit
        ((effect_storeMem _ _).trans (if_neg (hoperand ▸ hge.not_gt))), view_pc, hoperand]
      rfl
  | shr addr =>
    rcases execShr_cases addr s with ⟨hlt, e⟩ | ⟨hge, e⟩ <;> cases hx.symm.trans e
    · rw [refStep_completes (r := view s) hop hfit
        ((effect_shr _ _).trans (if_pos (hoperand ▸ hlt))), view_pc, hoperand,
        view_setAcc_advance, shiftRight_toNat]
      rfl
    · rw [view_raise, refStep_boundsError (r := view s) hop hfit
        ((effect_shr _ _).trans (if_neg (hoperand ▸ hge.not_gt))), view_pc, hoperand]
      rfl

/-- The commuting square of one step, R71: an instruction, an illegal nibble or an overrun. -/
theorem view_step {s t : State} (h : step s = .next t) :
    view t = refStep s.prog (view s) := by
  obtain ⟨hf, hpc⟩ : s.Running := running_of_step_next h
  obtain ⟨b0, rest, hrem⟩ := List.exists_cons_of_ne_nil (remaining_ne_nil hpc)
  have hbyte : byteAt s.prog (view s).pc = b0.toNat := byteAt_pc_of_remaining hrem
  by_cases hop : ∃ op : Opcode, b0.toNat % 16 = op.nibble.toNat
  · obtain ⟨op, hop⟩ := hop
    by_cases hover : s.pc + op.width > s.len
    · cases h.symm.trans (step_of_overrun op hf hrem hop hover)
      rw [view_raise, refStep_overrun (r := view s) (hbyte ▸ hop) hover]
      rfl
    · have hlen : op.width ≤ (b0 :: rest).length := by
        rw [← hrem, remaining_length]
        omega
      obtain ⟨i, hi⟩ := (decode_cons_of_opcode op rest hop).2 hlen
      have hfetch : fetch s = .instr i := by rw [fetch, hrem, hi]
      exact view_exec hfetch ((step_of_fetch_instr hf hfetch).symm.trans h)
  · have hne := not_exists.1 hop
    cases h.symm.trans (step_of_remaining_illegal hf hrem hne)
    rw [view_raise, refStep_illegal (r := view s) (hbyte ▸ hne), hbyte]
    rfl

/-- Settles O42: a running state has a step, and `view_step` carries it to the reference. -/
theorem stepRefinesThePseudocode : Obligations.StepRefinesThePseudocode := by
  intro s hf hpc
  obtain ⟨t, ht⟩ := (exists_step_next_iff_running s).2 ⟨hf, hpc⟩
  exact ⟨t, ht, step_prog ht, view_step ht⟩

/-! ### A run -/

theorem refRun_succ_of_running {s : State} (k : Nat) (h : s.Running) :
    refRun s.prog (k + 1) (view s) = refRun s.prog k (refStep s.prog (view s)) := by
  rw [refRun, if_pos ⟨(view_fault_eq_none s).2 h.1, h.2⟩]

theorem refRun_of_not_running {s : State} (k : Nat) (h : ¬ s.Running) :
    refRun s.prog k (view s) = view s := by
  cases k with
  | zero => rfl
  | succ k => exact if_neg fun ⟨hf, hpc⟩ => h ⟨(view_fault_eq_none s).1 hf, hpc⟩

/-- Settles O43: induction on the number of steps, one `view_step` each; where no step exists, both
machines stay. -/
theorem runRefinesTheUnboundedReference : Obligations.RunRefinesTheUnboundedReference := by
  intro k
  induction k with
  | zero => exact fun s => rfl
  | succ k ih =>
    intro s
    by_cases hrun : s.Running
    · obtain ⟨t, ht⟩ := (exists_step_next_iff_running s).2 hrun
      calc view (runFor (k + 1) s)
          = view (runFor k t) := by rw [runFor_succ_of_next k ht]
        _ = refRun s.prog k (view t) := by rw [ih t, step_prog ht]
        _ = refRun s.prog k (refStep s.prog (view s)) := by rw [view_step ht]
        _ = refRun s.prog (k + 1) (view s) := (refRun_succ_of_running k hrun).symm
    · rw [runFor_of_not_running hrun, refRun_of_not_running (k + 1) hrun]

end Sys2Proof.Reference
end

section
/-! The assembler over its lines (30_encoding.md R55, R59): all of them parse and their bytes are
put together in order, or the first bad one is reported. -/

namespace Sys2Proof.Assembler

theorem parseFrom_cons_error {text : List Char} {reason : ParseReason} (n : Nat)
    (rest : List (List Char)) (h : parseLine text = .error reason) :
    parseFrom n (text :: rest) = .error { line := n, reason := reason } := by
  rw [parseFrom, h]

theorem parseFrom_cons_ok {text : List Char} {line : Line} (n : Nat) (rest : List (List Char))
    (h : parseLine text = .ok line) :
    parseFrom n (text :: rest) = (parseFrom (n + 1) rest).map (line :: ·) := by
  rw [parseFrom, h]
  cases parseFrom (n + 1) rest <;> rfl

theorem assemble_eq (source : List (List Char)) :
    assemble source = (parseFrom 1 source).map emit := by
  rw [assemble]
  cases parseFrom 1 source <;> rfl

theorem map_eq_ok_iff {ε α β : Type} (f : α → β) (x : Except ε α) (b : β) :
    x.map f = .ok b ↔ ∃ a, x = .ok a ∧ f a = b := by
  cases x <;> simp [Except.map]

theorem map_eq_error_iff {ε α β : Type} (f : α → β) (x : Except ε α) (e : ε) :
    x.map f = .error e ↔ x = .error e := by
  cases x <;> simp [Except.map]

/-! ### Every line parses -/

theorem parseFrom_eq_ok_iff (n : Nat) (source : List (List Char)) (lines : List Line) :
    parseFrom n source = .ok lines ↔ source.map parseLine = lines.map Except.ok := by
  induction source generalizing n lines with
  | nil => cases lines <;> simp [parseFrom]
  | cons text rest ih =>
    cases hp : parseLine text with
    | error reason => cases lines <;> simp [parseFrom_cons_error n rest hp, hp]
    | ok line =>
      rw [parseFrom_cons_ok n rest hp, map_eq_ok_iff]
      cases lines <;> simp [ih, hp, and_comm]

/-- Settles O48: the bytes are the emission of exactly the lines that parse. -/
theorem assemblyIsConcatenationOfLines : Obligations.AssemblyIsConcatenationOfLines := by
  intro source bytes
  rw [assemble_eq, map_eq_ok_iff]
  refine exists_congr fun lines => ?_
  rw [parseFrom_eq_ok_iff, emit, eq_comm (a := bytes)]

/-! ### The first bad line -/

theorem parseFrom_of_first_bad {before : List (List Char)} {text : List Char}
    {reason : ParseReason} (n : Nat) (after : List (List Char))
    (hgood : ∀ l ∈ before, ∃ line, parseLine l = .ok line)
    (hbad : parseLine text = .error reason) :
    parseFrom n (before ++ text :: after) =
      .error { line := n + before.length, reason := reason } := by
  induction before generalizing n with
  | nil => exact parseFrom_cons_error n after hbad
  | cons l before ih =>
    obtain ⟨line, hline⟩ := hgood l List.mem_cons_self
    have ih := ih (n + 1) fun l hl => hgood l (List.mem_cons_of_mem _ hl)
    rw [List.cons_append, parseFrom_cons_ok n _ hline, map_eq_error_iff, ih, List.length_cons,
      Nat.add_right_comm, Nat.add_assoc]

theorem exists_first_bad_of_parseFrom {n : Nat} {source : List (List Char)} {e : ParseError}
    (h : parseFrom n source = .error e) :
    ∃ before text after, source = before ++ text :: after ∧ e.line = n + before.length ∧
      parseLine text = .error e.reason ∧ ∀ l ∈ before, ∃ line, parseLine l = .ok line := by
  induction source generalizing n with
  | nil => cases h
  | cons text rest ih =>
    cases hp : parseLine text with
    | error reason =>
      cases h.symm.trans (parseFrom_cons_error n rest hp)
      exact ⟨[], text, rest, rfl, rfl, hp, nofun⟩
    | ok line =>
      rw [parseFrom_cons_ok n rest hp, map_eq_error_iff] at h
      obtain ⟨before, bad, after, rfl, hline, hbad, hgood⟩ := ih h
      refine ⟨text :: before, bad, after, rfl, ?_, hbad, ?_⟩
      · rw [hline, List.length_cons]
        omega
      · exact List.forall_mem_cons.2 ⟨⟨line, hp⟩, hgood⟩

/-- Settles O49: lines are counted from 1, and the first bad one is where the pass stops. -/
theorem firstBadLineAbortsTheAssembly : Obligations.FirstBadLineAbortsTheAssembly := by
  intro source n reason
  rw [assemble_eq, map_eq_error_iff]
  refine ⟨fun h => ?_, fun ⟨before, text, after, hsource, hn, hbad, hgood⟩ => ?_⟩
  · obtain ⟨before, text, after, hsource, hline, hbad, hgood⟩ := exists_first_bad_of_parseFrom h
    exact ⟨before, text, after, hsource, hline.trans (Nat.add_comm 1 _), hbad, hgood⟩
  · rw [hsource, parseFrom_of_first_bad 1 after hgood hbad, hn, Nat.add_comm]

end Sys2Proof.Assembler
end

section
/-! The assembler's grammar (30_encoding.md R55, decision D12): how a line falls into tokens, which
tokens make a line, and so which texts are accepted. A listing (section 8) is one of them. -/

namespace Sys2Proof.Assembler

/-! ### Tokens -/

/-- A string that can be one token: not empty and without a blank. -/
def IsToken (t : List Char) : Prop := t ≠ [] ∧ ∀ c ∈ t, isBlank c = false

theorem tokensFrom_cons_blank {c : Char} (cs : List Char) (h : isBlank c = true) :
    tokensFrom [] (c :: cs) = tokensFrom [] cs := by
  rw [tokensFrom, if_pos h, if_pos rfl]

theorem tokensFrom_cons_other {c : Char} (word cs : List Char) (h : isBlank c = false) :
    tokensFrom word (c :: cs) = tokensFrom (c :: word) cs := by
  rw [tokensFrom, if_neg (by simp [h])]

theorem tokensFrom_word_nil {word : List Char} (h : word ≠ []) :
    tokensFrom word [] = [word.reverse] := by
  rw [tokensFrom, if_neg h]

theorem tokensFrom_word_blank {word : List Char} {c : Char} (cs : List Char) (h : word ≠ [])
    (hc : isBlank c = true) : tokensFrom word (c :: cs) = word.reverse :: tokensFrom [] cs := by
  rw [tokensFrom, if_pos hc, if_neg h]

/-! ### The tokens of a text put together from its parts -/

theorem tokensFrom_blanks_append {blanks : List Char} (cs : List Char)
    (h : blanks.all isBlank = true) : tokensFrom [] (blanks ++ cs) = tokensFrom [] cs := by
  induction blanks with
  | nil => rfl
  | cons c blanks ih =>
    rw [List.all_cons, Bool.and_eq_true] at h
    rw [List.cons_append, tokensFrom_cons_blank _ h.1, ih h.2]

theorem tokensFrom_nonblanks_append (word : List Char) {t : List Char} (cs : List Char)
    (h : ∀ c ∈ t, isBlank c = false) :
    tokensFrom word (t ++ cs) = tokensFrom (t.reverse ++ word) cs := by
  induction t generalizing word with
  | nil => rfl
  | cons c t ih =>
    obtain ⟨hc, ht⟩ := List.forall_mem_cons.1 h
    rw [List.cons_append, tokensFrom_cons_other _ _ hc, ih _ ht, List.reverse_cons,
      List.append_assoc, List.singleton_append]

/-- A token followed by blanks, or by nothing at the end of the line, is cut off whole. -/
theorem tokensFrom_token_append {t blanks cs : List Char} (ht : IsToken t)
    (hblanks : blanks.all isBlank = true) (hsep : blanks ≠ [] ∨ cs = []) :
    tokensFrom [] (t ++ (blanks ++ cs)) = t :: tokensFrom [] cs := by
  have hword : t.reverse ≠ [] := fun e => ht.1 (List.reverse_eq_nil_iff.1 e)
  rw [tokensFrom_nonblanks_append [] _ ht.2, List.append_nil]
  cases blanks with
  | nil =>
    have hcs : cs = [] := hsep.resolve_left (· rfl)
    rw [hcs, List.nil_append, tokensFrom_word_nil hword, List.reverse_reverse]
    rfl
  | cons c blanks =>
    rw [List.all_cons, Bool.and_eq_true] at hblanks
    rw [List.cons_append, tokensFrom_word_blank _ hword hblanks.1, List.reverse_reverse,
      tokensFrom_blanks_append cs hblanks.2]

/-! ### The parts of a text found from its tokens -/

/-- What stands after the first token: nothing, or a blank and the text of the other tokens. -/
def TailOf (ts : List (List Char)) (rest : List Char) : Prop :=
  (rest = [] ∧ ts = []) ∨ ∃ c more, isBlank c = true ∧ rest = c :: more ∧ tokensFrom [] more = ts

theorem word_of_tokensFrom {word cs t : List Char} {ts : List (List Char)} (hword : word ≠ [])
    (h : tokensFrom word cs = t :: ts) :
    ∃ u rest, t = word.reverse ++ u ∧ cs = u ++ rest ∧ TailOf ts rest := by
  induction cs generalizing word with
  | nil =>
    cases (tokensFrom_word_nil hword).symm.trans h
    exact ⟨[], [], (List.append_nil _).symm, rfl, .inl ⟨rfl, rfl⟩⟩
  | cons c cs ih =>
    cases hc : isBlank c with
    | true =>
      cases (tokensFrom_word_blank cs hword hc).symm.trans h
      exact ⟨[], c :: cs, (List.append_nil _).symm, rfl, .inr ⟨c, cs, hc, rfl, rfl⟩⟩
    | false =>
      rw [tokensFrom_cons_other word cs hc] at h
      obtain ⟨u, rest, rfl, rfl, htail⟩ := ih (List.cons_ne_nil c word) h
      exact ⟨c :: u, rest, by simp, rfl, htail⟩

theorem first_token_of_tokensFrom {cs t : List Char} {ts : List (List Char)}
    (h : tokensFrom [] cs = t :: ts) :
    ∃ before rest, before.all isBlank = true ∧ cs = before ++ t ++ rest ∧ TailOf ts rest := by
  induction cs with
  | nil => cases h
  | cons c cs ih =>
    cases hc : isBlank c with
    | true =>
      rw [tokensFrom_cons_blank cs hc] at h
      obtain ⟨before, rest, hbefore, rfl, htail⟩ := ih h
      exact ⟨c :: before, rest, by simp [hc, hbefore], rfl, htail⟩
    | false =>
      rw [tokensFrom_cons_other [] cs hc] at h
      obtain ⟨u, rest, rfl, rfl, htail⟩ := word_of_tokensFrom (List.cons_ne_nil c []) h
      exact ⟨[], rest, rfl, rfl, htail⟩

theorem tokensFrom_word_ne_nil {word : List Char} (cs : List Char) (h : word ≠ []) :
    tokensFrom word cs ≠ [] := by
  induction cs generalizing word with
  | nil => simp [tokensFrom_word_nil h]
  | cons c cs ih =>
    cases hc : isBlank c with
    | true => simp [tokensFrom_word_blank cs h hc]
    | false =>
      rw [tokensFrom_cons_other word cs hc]
      exact ih (List.cons_ne_nil c word)

theorem blanks_of_tokensFrom_eq_nil {cs : List Char} (h : tokensFrom [] cs = []) :
    cs.all isBlank = true := by
  induction cs with
  | nil => rfl
  | cons c cs ih =>
    cases hc : isBlank c with
    | true =>
      rw [tokensFrom_cons_blank cs hc] at h
      rw [List.all_cons, hc, ih h, Bool.and_self]
    | false =>
      rw [tokensFrom_cons_other [] cs hc] at h
      exact absurd h (tokensFrom_word_ne_nil cs (List.cons_ne_nil c []))

theorem blanks_of_tailOf_nil {rest : List Char} (h : TailOf [] rest) : rest.all isBlank = true := by
  obtain ⟨rfl, _⟩ | ⟨c, more, hc, rfl, hmore⟩ := h
  · rfl
  · rw [List.all_cons, hc, blanks_of_tokensFrom_eq_nil hmore, Bool.and_self]

/-! ### Texts of one and of two tokens -/

theorem exists_of_tokensFrom_eq_singleton {text t : List Char} (h : tokensFrom [] text = [t]) :
    ∃ before after, before.all isBlank = true ∧ after.all isBlank = true ∧
      text = before ++ t ++ after := by
  obtain ⟨before, rest, hbefore, rfl, htail⟩ := first_token_of_tokensFrom h
  exact ⟨before, rest, hbefore, blanks_of_tailOf_nil htail, rfl⟩

theorem tokensFrom_eq_singleton {before t after : List Char} (ht : IsToken t)
    (hbefore : before.all isBlank = true) (hafter : after.all isBlank = true) :
    tokensFrom [] (before ++ t ++ after) = [t] := by
  have hcut := tokensFrom_token_append (cs := []) ht hafter (.inr rfl)
  rw [List.append_nil] at hcut
  rw [List.append_assoc, tokensFrom_blanks_append _ hbefore, hcut]
  rfl

theorem exists_of_tokensFrom_eq_pair {text t u : List Char} (h : tokensFrom [] text = [t, u]) :
    ∃ before after between, before.all isBlank = true ∧ after.all isBlank = true ∧
      between ≠ [] ∧ between.all isBlank = true ∧ text = before ++ t ++ between ++ u ++ after := by
  obtain ⟨before, rest, hbefore, rfl, ⟨_, hnil⟩ | ⟨c, more, hc, rfl, hmore⟩⟩ :=
    first_token_of_tokensFrom h
  · cases hnil
  · obtain ⟨blanks, after, hblanks, hafter, rfl⟩ := exists_of_tokensFrom_eq_singleton hmore
    exact ⟨before, after, c :: blanks, hbefore, hafter, List.cons_ne_nil c blanks,
      by rw [List.all_cons, hc, hblanks, Bool.and_self], by simp⟩

theorem tokensFrom_eq_pair {before t between u after : List Char} (ht : IsToken t)
    (hu : IsToken u) (hbefore : before.all isBlank = true) (hafter : after.all isBlank = true)
    (hne : between ≠ []) (hbetween : between.all isBlank = true) :
    tokensFrom [] (before ++ t ++ between ++ u ++ after) = [t, u] := by
  have hrest : tokensFrom [] (u ++ after) = [u] :=
    tokensFrom_eq_singleton (before := []) hu rfl hafter
  simp only [List.append_assoc]
  rw [tokensFrom_blanks_append _ hbefore, tokensFrom_token_append ht hbetween (.inl hne), hrest]

/-! ### The tokens of a line -/

/-- The tokens that make a line: its mnemonic, and a decimal number where an operand is due. -/
def TokensOf : Line → List (List Char) → Prop
  | .loadConst v, ts => ∃ digits, ts = [mnemonic .loadConst, digits] ∧ parseDecimal digits = some v
  | .loadMem, ts => ts = [mnemonic .loadMem]
  | .storeMem a, ts => ∃ digits, ts = [mnemonic .storeMem, digits] ∧ parseDecimal digits = some a
  | .shr a, ts => ∃ digits, ts = [mnemonic .shr, digits] ∧ parseDecimal digits = some a

theorem oneOperand_eq_ok_iff (mk : Nat → Line) (ts : List (List Char)) (line : Line) :
    oneOperand mk ts = .ok line ↔
      ∃ digits v, ts = [digits] ∧ parseDecimal digits = some v ∧ mk v = line := by
  match ts with
  | [] => simp [oneOperand]
  | [t] => cases hv : parseDecimal t <;> simp [oneOperand, hv]
  | _ :: _ :: _ => simp [oneOperand]

theorem noOperand_eq_ok_iff (line line' : Line) (ts : List (List Char)) :
    noOperand line ts = .ok line' ↔ ts = [] ∧ line = line' := by
  cases ts <;> simp [noOperand]

theorem parseTokens_eq_ok_iff (ts : List (List Char)) (line : Line) :
    parseTokens ts = .ok line ↔ TokensOf line ts := by
  refine ⟨fun h => ?parsed, fun h => ?tokens⟩
  case parsed =>
    unfold parseTokens at h
    split at h
    · cases h
    · split_ifs at h with hm hm hm hm <;> subst hm
      · obtain ⟨digits, v, rfl, hv, rfl⟩ := (oneOperand_eq_ok_iff _ _ _).1 h
        exact ⟨digits, rfl, hv⟩
      · obtain ⟨rfl, rfl⟩ := (noOperand_eq_ok_iff _ _ _).1 h
        rfl
      · obtain ⟨digits, v, rfl, hv, rfl⟩ := (oneOperand_eq_ok_iff _ _ _).1 h
        exact ⟨digits, rfl, hv⟩
      · obtain ⟨digits, v, rfl, hv, rfl⟩ := (oneOperand_eq_ok_iff _ _ _).1 h
        exact ⟨digits, rfl, hv⟩
  case tokens =>
    cases line with
    | loadConst v =>
      obtain ⟨digits, rfl, hv⟩ := h
      exact (oneOperand_eq_ok_iff .loadConst _ _).2 ⟨digits, v, rfl, hv, rfl⟩
    | loadMem =>
      cases h
      rfl
    | storeMem a =>
      obtain ⟨digits, rfl, hv⟩ := h
      exact (oneOperand_eq_ok_iff .storeMem _ _).2 ⟨digits, a, rfl, hv, rfl⟩
    | shr a =>
      obtain ⟨digits, rfl, hv⟩ := h
      exact (oneOperand_eq_ok_iff .shr _ _).2 ⟨digits, a, rfl, hv, rfl⟩

/-! ### The grammar -/

theorem isToken_mnemonic (op : Opcode) : IsToken (mnemonic op) := by
  cases op <;> simp [IsToken, mnemonic, isBlank]

theorem isBlank_of_isDecimal {c : Char} (h : isDecimal c = true) : isBlank c = false := by
  cases hc : isBlank c with
  | false => rfl
  | true =>
    have hblank : c = ' ' ∨ c = '\t' := by simpa [isBlank] using hc
    rcases hblank with rfl | rfl <;> exact absurd h (by decide)

theorem parseDecimal_eq_some_iff (digits : List Char) (v : Nat) :
    parseDecimal digits = some v ↔
      digits ≠ [] ∧ digits.all isDecimal = true ∧ decimalValue digits = v := by
  rw [parseDecimal, Option.ite_none_right_eq_some, and_assoc, Option.some_inj]

theorem isToken_of_parseDecimal {digits : List Char} {v : Nat} (h : parseDecimal digits = some v) :
    IsToken digits := by
  obtain ⟨hne, hall, _⟩ := (parseDecimal_eq_some_iff digits v).1 h
  exact ⟨hne, fun c hc => isBlank_of_isDecimal (List.all_eq_true.1 hall c hc)⟩

/-- The texts of a line with an operand, 30_encoding.md R55 and decision D12. -/
theorem exists_operand_tokens_iff (op : Opcode) (text : List Char) (v : Nat) :
    (∃ digits, tokensFrom [] text = [mnemonic op, digits] ∧ parseDecimal digits = some v) ↔
      ∃ before after : List Char, before.all isBlank = true ∧ after.all isBlank = true ∧
        ∃ between digits : List Char, between ≠ [] ∧ between.all isBlank = true ∧
          digits ≠ [] ∧ digits.all isDecimal = true ∧ decimalValue digits = v ∧
          text = before ++ mnemonic op ++ between ++ digits ++ after := by
  refine ⟨fun ⟨digits, htokens, hv⟩ => ?_, ?_⟩
  · obtain ⟨before, after, between, hbefore, hafter, hne, hbetween, htext⟩ :=
      exists_of_tokensFrom_eq_pair htokens
    obtain ⟨hdne, hdall, hdv⟩ := (parseDecimal_eq_some_iff digits v).1 hv
    exact ⟨before, after, hbefore, hafter, between, digits, hne, hbetween, hdne, hdall, hdv, htext⟩
  · rintro ⟨before, after, hbefore, hafter, between, digits, hne, hbetween, hdne, hdall, hdv, rfl⟩
    have hv : parseDecimal digits = some v :=
      (parseDecimal_eq_some_iff digits v).2 ⟨hdne, hdall, hdv⟩
    exact ⟨digits, tokensFrom_eq_pair (isToken_mnemonic op) (isToken_of_parseDecimal hv) hbefore
      hafter hne hbetween, hv⟩

/-- Settles O51: a line parses exactly when its tokens are a line's, and a text has these tokens
exactly when it has the parts of the grammar. -/
theorem acceptedLinesAreExactlyTheGrammar : Obligations.AcceptedLinesAreExactlyTheGrammar := by
  intro text line
  rw [parseLine, parseTokens_eq_ok_iff]
  cases line with
  | loadConst v => exact exists_operand_tokens_iff .loadConst text v
  | loadMem =>
    refine ⟨exists_of_tokensFrom_eq_singleton, ?_⟩
    rintro ⟨before, after, hbefore, hafter, rfl⟩
    exact tokensFrom_eq_singleton (isToken_mnemonic .loadMem) hbefore hafter
  | storeMem a => exact exists_operand_tokens_iff .storeMem text a
  | shr a => exact exists_operand_tokens_iff .shr text a

/-! ### Listings -/

theorem isDecimal_of_isDigit {c : Char} (h : c.isDigit = true) : isDecimal c = true := by
  simpa [Char.isDigit, isDecimal, UInt32.le_iff_toNat_le] using h

/-- The decimal digits of a number, as a listing writes them, read back as that number. -/
theorem parseDecimal_toDigits (n : Nat) : parseDecimal (Nat.toDigits 10 n) = some n := by
  refine (parseDecimal_eq_some_iff _ n).2 ⟨Nat.toDigits_ne_nil, List.all_eq_true.2 fun c hc =>
    isDecimal_of_isDigit (Nat.isDigit_of_mem_toDigits (by decide) le_rfl hc), ?_⟩
  calc decimalValue (Nat.toDigits 10 n)
      = Nat.ofDigitChars 10 (Nat.toDigits 10 n) 0 := Nat.ofDigitChars_eq_foldl.symm
    _ = n := Nat.ofDigitChars_ten_toDigits

/-- A mnemonic, one space and a decimal number are two tokens. -/
theorem tokensFrom_listing (op : Opcode) (n : Nat) :
    tokensFrom [] (mnemonic op ++ ' ' :: Nat.toDigits 10 n) = [mnemonic op, Nat.toDigits 10 n] := by
  have h := tokensFrom_eq_pair (before := []) (between := [' ']) (after := []) (isToken_mnemonic op)
    (isToken_of_parseDecimal (parseDecimal_toDigits n)) rfl rfl (by decide) (by decide)
  simpa using h

/-- The line a listing is the text of. -/
def lineOf : Instr → Line
  | .loadConst imm => .loadConst imm.toNat
  | .loadMem => .loadMem
  | .storeMem addr => .storeMem addr.toNat
  | .shr addr => .shr addr.toNat

theorem parseLine_listing (i : Instr) : parseLine i.listing = .ok (lineOf i) := by
  rw [parseLine, parseTokens_eq_ok_iff]
  cases i with
  | loadConst imm => exact ⟨_, tokensFrom_listing .loadConst imm.toNat, parseDecimal_toDigits _⟩
  | loadMem => rfl
  | storeMem addr => exact ⟨_, tokensFrom_listing .storeMem addr.toNat, parseDecimal_toDigits _⟩
  | shr addr => exact ⟨_, tokensFrom_listing .shr addr.toNat, parseDecimal_toDigits _⟩

/-- The Encoder cuts nothing off a canonical operand, 30_encoding.md R53. -/
theorem meant_lineOf {i : Instr} (h : i.canonical = true) : (lineOf i).meant = i := by
  have address_kept {addr : Field} (ha : addr.toNat < 4096) :
      BitVec.ofNat 28 (addr.toNat % 4096) = addr := by
    rw [Nat.mod_eq_of_lt ha, BitVec.ofNat_toNat, BitVec.setWidth_eq]
  cases i with
  | loadConst imm => simp [lineOf, Line.meant]
  | loadMem => rfl
  | storeMem addr => exact congrArg Instr.storeMem (address_kept (of_decide_eq_true h))
  | shr addr => exact congrArg Instr.shr (address_kept (of_decide_eq_true h))

/-- Settles O50: the listing parses as the instruction's line, whose bytes are the encoding of what
it means, and a canonical operand is meant whole. -/
theorem listingOfCanonicalInstructionReassembles :
    Obligations.ListingOfCanonicalInstructionReassembles := by
  intro i h
  refine ⟨lineOf i, parseLine_listing i, ?_⟩
  rw [Line.bytes_eq_encode_meant, meant_lineOf h]

end Sys2Proof.Assembler
end
